-- ==== Sys2Proof/Word.lean ====
section
/-! DEFINITION. The machine word and the byte (00_scope.md R7, R8): 32 and 8 bits, bit 0 least significant. -/

namespace Sys2Proof

/-- A 32-bit value: a register, an address, an instruction (R7). -/
abbrev Word := BitVec 32

/-- An 8-bit value: one addressable unit of memory (10_state.md R32). -/
abbrev Byte := BitVec 8

/-- A general-register number or a coprocessor-0 index, 0 to 31 (10_state.md R23, R26). -/
abbrev Reg := Fin 32

end Sys2Proof
end

