-- ==== Sys2Proof/Syntax.lean ====
section
/-! DEFINITION. The 57 instructions of spec/opcode_table.json (30_encoding.md R96), one constructor each, operands in
the assembler's order (R103). `rd`, `rs`, `rt` are register numbers (for `mfc0`/`mtc0` `rd` is a coprocessor-0
index), `sh` the 5-bit shift amount, `imm` the raw 16-bit immediate, `target` the raw 26-bit jump field (R93). -/

namespace Sys2Proof

inductive Instr where
  -- shifts (41_shift.md)
  | sll (rd rt : Reg) (sh : BitVec 5)
  | srl (rd rt : Reg) (sh : BitVec 5)
  | sra (rd rt : Reg) (sh : BitVec 5)
  | sllv (rd rt rs : Reg)
  | srlv (rd rt rs : Reg)
  | srav (rd rt rs : Reg)
  -- register jumps and the system call (46_jump.md, 48_cop0_system.md)
  | jr (rs : Reg)
  | jalr (rd rs : Reg)
  | syscall
  -- multiply and divide (43_muldiv.md)
  | mfhi (rd : Reg)
  | mflo (rd : Reg)
  | mult (rs rt : Reg)
  | multu (rs rt : Reg)
  | div (rs rt : Reg)
  | divu (rs rt : Reg)
  -- three-register arithmetic, logic and compares (42_arith.md, 44_logic_compare.md)
  | add (rd rs rt : Reg)
  | addu (rd rs rt : Reg)
  | subu (rd rs rt : Reg)
  | and (rd rs rt : Reg)
  | or (rd rs rt : Reg)
  | xor (rd rs rt : Reg)
  | nor (rd rs rt : Reg)
  | slt (rd rs rt : Reg)
  | sltu (rd rs rt : Reg)
  -- branches and jumps (45_branch.md, 46_jump.md)
  | bltz (rs : Reg) (imm : BitVec 16)
  | bgez (rs : Reg) (imm : BitVec 16)
  | bltzal (rs : Reg) (imm : BitVec 16)
  | bgezal (rs : Reg) (imm : BitVec 16)
  | j (target : BitVec 26)
  | jal (target : BitVec 26)
  | beq (rs rt : Reg) (imm : BitVec 16)
  | bne (rs rt : Reg) (imm : BitVec 16)
  | blez (rs : Reg) (imm : BitVec 16)
  | bgtz (rs : Reg) (imm : BitVec 16)
  -- immediates
  | addi (rt rs : Reg) (imm : BitVec 16)
  | addiu (rt rs : Reg) (imm : BitVec 16)
  | slti (rt rs : Reg) (imm : BitVec 16)
  | sltiu (rt rs : Reg) (imm : BitVec 16)
  | andi (rt rs : Reg) (imm : BitVec 16)
  | ori (rt rs : Reg) (imm : BitVec 16)
  | xori (rt rs : Reg) (imm : BitVec 16)
  | lui (rt : Reg) (imm : BitVec 16)
  -- coprocessor 0 (48_cop0_system.md)
  | mfc0 (rt rd : Reg)
  | mtc0 (rt rd : Reg)
  | rfe
  -- loads and stores (47_load_store.md): data register, base register, offset
  | lb (rt rs : Reg) (imm : BitVec 16)
  | lh (rt rs : Reg) (imm : BitVec 16)
  | lwl (rt rs : Reg) (imm : BitVec 16)
  | lw (rt rs : Reg) (imm : BitVec 16)
  | lbu (rt rs : Reg) (imm : BitVec 16)
  | lhu (rt rs : Reg) (imm : BitVec 16)
  | lwr (rt rs : Reg) (imm : BitVec 16)
  | sb (rt rs : Reg) (imm : BitVec 16)
  | sh (rt rs : Reg) (imm : BitVec 16)
  | swl (rt rs : Reg) (imm : BitVec 16)
  | sw (rt rs : Reg) (imm : BitVec 16)
  | swr (rt rs : Reg) (imm : BitVec 16)
deriving DecidableEq, Repr

end Sys2Proof
end

