-- ==== Sys2Proof/Decode.lean ====
section
/-! DEFINITION. Decoding (30_encoding.md R90 to R100), total on any bytes and rejecting by name; the encoder, written
from the same tables; and the opcode table R96 as data. Every number here is the spec's (its rules R95 to R97, R99,
R100, themselves the MIPS I encodings by the spec's decision D2). -/

namespace Sys2Proof

/-! ## Fields (R91, R13) -/

def fieldOp (w : Word) : BitVec 6 := w.extractLsb' 26 6
def fieldRs (w : Word) : Reg := (w.extractLsb' 21 5).toFin
def fieldRt (w : Word) : Reg := (w.extractLsb' 16 5).toFin
def fieldRd (w : Word) : Reg := (w.extractLsb' 11 5).toFin
def fieldShamt (w : Word) : BitVec 5 := w.extractLsb' 6 5
def fieldFunct (w : Word) : BitVec 6 := w.extractLsb' 0 6
def fieldImm (w : Word) : BitVec 16 := w.extractLsb' 0 16
def fieldTarget (w : Word) : BitVec 26 := w.extractLsb' 0 26

/-! ## The decoder -/

/-- Why a word is no instruction (R98): the dispatch level at which it matched nothing. -/
inductive Reject where
  /-- `op` is marked unimpl in R95. -/
  | primary (op : BitVec 6)
  /-- `op = 0` and `funct` is marked unimpl in R97. -/
  | special (funct : BitVec 6)
  /-- `op = 1` and `rt` is not one of R100's four values. -/
  | region1 (rt : BitVec 5)
  /-- `op = 0x10` and `rs` is none of R99's three values. -/
  | cop0Select (rs : BitVec 5)
  /-- `op = 0x10`, `rs = 0x10` and `funct` is not `rfe`'s (R99). -/
  | cop0Op (funct : BitVec 6)
  /-- Fewer than four bytes: no instruction is shorter than one word (R90). -/
  | truncated
deriving DecidableEq, Repr

/-- What the decoder answers: an instruction, or the name of the reason there is none. -/
inductive Decoded where
  | instr (i : Instr)
  | unimplemented (why : Reject)
deriving DecidableEq, Repr

/-- The SPECIAL group, `op = 0`, dispatched on `funct` (R97). -/
def decodeSpecial (w : Word) : Decoded :=
  match fieldFunct w with
  | 0x00#6 => .instr (.sll (fieldRd w) (fieldRt w) (fieldShamt w))
  | 0x02#6 => .instr (.srl (fieldRd w) (fieldRt w) (fieldShamt w))
  | 0x03#6 => .instr (.sra (fieldRd w) (fieldRt w) (fieldShamt w))
  | 0x04#6 => .instr (.sllv (fieldRd w) (fieldRt w) (fieldRs w))
  | 0x06#6 => .instr (.srlv (fieldRd w) (fieldRt w) (fieldRs w))
  | 0x07#6 => .instr (.srav (fieldRd w) (fieldRt w) (fieldRs w))
  | 0x08#6 => .instr (.jr (fieldRs w))
  | 0x09#6 => .instr (.jalr (fieldRd w) (fieldRs w))
  | 0x0C#6 => .instr (.syscall)
  | 0x10#6 => .instr (.mfhi (fieldRd w))
  | 0x12#6 => .instr (.mflo (fieldRd w))
  | 0x18#6 => .instr (.mult (fieldRs w) (fieldRt w))
  | 0x19#6 => .instr (.multu (fieldRs w) (fieldRt w))
  | 0x1A#6 => .instr (.div (fieldRs w) (fieldRt w))
  | 0x1B#6 => .instr (.divu (fieldRs w) (fieldRt w))
  | 0x20#6 => .instr (.add (fieldRd w) (fieldRs w) (fieldRt w))
  | 0x21#6 => .instr (.addu (fieldRd w) (fieldRs w) (fieldRt w))
  | 0x23#6 => .instr (.subu (fieldRd w) (fieldRs w) (fieldRt w))
  | 0x24#6 => .instr (.and (fieldRd w) (fieldRs w) (fieldRt w))
  | 0x25#6 => .instr (.or (fieldRd w) (fieldRs w) (fieldRt w))
  | 0x26#6 => .instr (.xor (fieldRd w) (fieldRs w) (fieldRt w))
  | 0x27#6 => .instr (.nor (fieldRd w) (fieldRs w) (fieldRt w))
  | 0x2A#6 => .instr (.slt (fieldRd w) (fieldRs w) (fieldRt w))
  | 0x2B#6 => .instr (.sltu (fieldRd w) (fieldRs w) (fieldRt w))
  | f => .unimplemented (.special f)

/-- The region-1 group, `op = 1`, dispatched on `rt` (R100). -/
def decodeRegion1 (w : Word) : Decoded :=
  match w.extractLsb' 16 5 with
  | 0x00#5 => .instr (.bltz (fieldRs w) (fieldImm w))
  | 0x01#5 => .instr (.bgez (fieldRs w) (fieldImm w))
  | 0x10#5 => .instr (.bltzal (fieldRs w) (fieldImm w))
  | 0x11#5 => .instr (.bgezal (fieldRs w) (fieldImm w))
  | r => .unimplemented (.region1 r)

/-- The coprocessor-0 group, `op = 0x10`, dispatched on `rs`, then on `funct` (R99). -/
def decodeCop0 (w : Word) : Decoded :=
  match w.extractLsb' 21 5 with
  | 0x00#5 => .instr (.mfc0 (fieldRt w) (fieldRd w))
  | 0x04#5 => .instr (.mtc0 (fieldRt w) (fieldRd w))
  | 0x10#5 =>
    match fieldFunct w with
    | 0x10#6 => .instr .rfe
    | f => .unimplemented (.cop0Op f)
  | r => .unimplemented (.cop0Select r)

/-- The nested dispatch of R94 over the primary map R95. Bits that are neither a dispatch key nor an operand are
ignored (D26). -/
def decode (w : Word) : Decoded :=
  match fieldOp w with
  | 0x00#6 => decodeSpecial w
  | 0x01#6 => decodeRegion1 w
  | 0x02#6 => .instr (.j (fieldTarget w))
  | 0x03#6 => .instr (.jal (fieldTarget w))
  | 0x04#6 => .instr (.beq (fieldRs w) (fieldRt w) (fieldImm w))
  | 0x05#6 => .instr (.bne (fieldRs w) (fieldRt w) (fieldImm w))
  | 0x06#6 => .instr (.blez (fieldRs w) (fieldImm w))
  | 0x07#6 => .instr (.bgtz (fieldRs w) (fieldImm w))
  | 0x08#6 => .instr (.addi (fieldRt w) (fieldRs w) (fieldImm w))
  | 0x09#6 => .instr (.addiu (fieldRt w) (fieldRs w) (fieldImm w))
  | 0x0A#6 => .instr (.slti (fieldRt w) (fieldRs w) (fieldImm w))
  | 0x0B#6 => .instr (.sltiu (fieldRt w) (fieldRs w) (fieldImm w))
  | 0x0C#6 => .instr (.andi (fieldRt w) (fieldRs w) (fieldImm w))
  | 0x0D#6 => .instr (.ori (fieldRt w) (fieldRs w) (fieldImm w))
  | 0x0E#6 => .instr (.xori (fieldRt w) (fieldRs w) (fieldImm w))
  | 0x0F#6 => .instr (.lui (fieldRt w) (fieldImm w))
  | 0x10#6 => decodeCop0 w
  | 0x20#6 => .instr (.lb (fieldRt w) (fieldRs w) (fieldImm w))
  | 0x21#6 => .instr (.lh (fieldRt w) (fieldRs w) (fieldImm w))
  | 0x22#6 => .instr (.lwl (fieldRt w) (fieldRs w) (fieldImm w))
  | 0x23#6 => .instr (.lw (fieldRt w) (fieldRs w) (fieldImm w))
  | 0x24#6 => .instr (.lbu (fieldRt w) (fieldRs w) (fieldImm w))
  | 0x25#6 => .instr (.lhu (fieldRt w) (fieldRs w) (fieldImm w))
  | 0x26#6 => .instr (.lwr (fieldRt w) (fieldRs w) (fieldImm w))
  | 0x28#6 => .instr (.sb (fieldRt w) (fieldRs w) (fieldImm w))
  | 0x29#6 => .instr (.sh (fieldRt w) (fieldRs w) (fieldImm w))
  | 0x2A#6 => .instr (.swl (fieldRt w) (fieldRs w) (fieldImm w))
  | 0x2B#6 => .instr (.sw (fieldRt w) (fieldRs w) (fieldImm w))
  | 0x2E#6 => .instr (.swr (fieldRt w) (fieldRs w) (fieldImm w))
  | o => .unimplemented (.primary o)

/-- Four bytes by rising address as one word, the byte at the lowest address in bits 7:0 (20_memory.md R65). -/
def wordOfBytes (b0 b1 b2 b3 : Byte) : Word := b3 ++ b2 ++ b1 ++ b0

/-- Decoding of a byte string, total: the instruction its first four bytes hold and the rest of the string. -/
def decodeBytes : List Byte → Decoded × List Byte
  | b0 :: b1 :: b2 :: b3 :: rest => (decode (wordOfBytes b0 b1 b2 b3), rest)
  | short => (.unimplemented .truncated, short)

/-- Byte `k` of a word, bits `8k+7 : 8k` (20_memory.md R53). -/
def byteOf (w : Word) (k : Nat) : Byte := w.extractLsb' (8 * k) 8

/-- The host's reading: the instruction whose table bits are `w`; every bit above `nbits` is 0. -/
def decodeTableWord (nbits w : Nat) : Option Instr :=
  let v : Word := BitVec.ofNat 32 (w % 2 ^ nbits)
  match decodeBytes [byteOf v 0, byteOf v 1, byteOf v 2, byteOf v 3] with
  | (.instr i, _) => some i
  | (.unimplemented _, _) => none

/-! ## The encoder (R91, R92, R96) -/

/-- R format: op, rs, rt, rd, shamt, funct from bit 31 down. -/
def encR (op : BitVec 6) (rs rt rd : Reg) (shamt : BitVec 5) (funct : BitVec 6) : Word :=
  op ++ (BitVec.ofFin rs : BitVec 5) ++ (BitVec.ofFin rt : BitVec 5) ++ (BitVec.ofFin rd : BitVec 5) ++ shamt ++ funct

/-- I format: op, rs, rt, imm. -/
def encI (op : BitVec 6) (rs rt : Reg) (imm : BitVec 16) : Word :=
  op ++ (BitVec.ofFin rs : BitVec 5) ++ (BitVec.ofFin rt : BitVec 5) ++ imm

/-- J format: op, target. -/
def encJ (op : BitVec 6) (target : BitVec 26) : Word := op ++ target

/-- The word of an instruction; bits it does not use are 0. -/
def encode : Instr → Word
  | .sll rd rt sh => encR 0x00#6 0 rt rd sh 0x00#6
  | .srl rd rt sh => encR 0x00#6 0 rt rd sh 0x02#6
  | .sra rd rt sh => encR 0x00#6 0 rt rd sh 0x03#6
  | .sllv rd rt rs => encR 0x00#6 rs rt rd 0 0x04#6
  | .srlv rd rt rs => encR 0x00#6 rs rt rd 0 0x06#6
  | .srav rd rt rs => encR 0x00#6 rs rt rd 0 0x07#6
  | .jr rs => encR 0x00#6 rs 0 0 0 0x08#6
  | .jalr rd rs => encR 0x00#6 rs 0 rd 0 0x09#6
  | .syscall => encR 0x00#6 0 0 0 0 0x0C#6
  | .mfhi rd => encR 0x00#6 0 0 rd 0 0x10#6
  | .mflo rd => encR 0x00#6 0 0 rd 0 0x12#6
  | .mult rs rt => encR 0x00#6 rs rt 0 0 0x18#6
  | .multu rs rt => encR 0x00#6 rs rt 0 0 0x19#6
  | .div rs rt => encR 0x00#6 rs rt 0 0 0x1A#6
  | .divu rs rt => encR 0x00#6 rs rt 0 0 0x1B#6
  | .add rd rs rt => encR 0x00#6 rs rt rd 0 0x20#6
  | .addu rd rs rt => encR 0x00#6 rs rt rd 0 0x21#6
  | .subu rd rs rt => encR 0x00#6 rs rt rd 0 0x23#6
  | .and rd rs rt => encR 0x00#6 rs rt rd 0 0x24#6
  | .or rd rs rt => encR 0x00#6 rs rt rd 0 0x25#6
  | .xor rd rs rt => encR 0x00#6 rs rt rd 0 0x26#6
  | .nor rd rs rt => encR 0x00#6 rs rt rd 0 0x27#6
  | .slt rd rs rt => encR 0x00#6 rs rt rd 0 0x2A#6
  | .sltu rd rs rt => encR 0x00#6 rs rt rd 0 0x2B#6
  | .bltz rs imm => encI 0x01#6 rs 0x00 imm
  | .bgez rs imm => encI 0x01#6 rs 0x01 imm
  | .bltzal rs imm => encI 0x01#6 rs 0x10 imm
  | .bgezal rs imm => encI 0x01#6 rs 0x11 imm
  | .j target => encJ 0x02#6 target
  | .jal target => encJ 0x03#6 target
  | .beq rs rt imm => encI 0x04#6 rs rt imm
  | .bne rs rt imm => encI 0x05#6 rs rt imm
  | .blez rs imm => encI 0x06#6 rs 0 imm
  | .bgtz rs imm => encI 0x07#6 rs 0 imm
  | .addi rt rs imm => encI 0x08#6 rs rt imm
  | .addiu rt rs imm => encI 0x09#6 rs rt imm
  | .slti rt rs imm => encI 0x0A#6 rs rt imm
  | .sltiu rt rs imm => encI 0x0B#6 rs rt imm
  | .andi rt rs imm => encI 0x0C#6 rs rt imm
  | .ori rt rs imm => encI 0x0D#6 rs rt imm
  | .xori rt rs imm => encI 0x0E#6 rs rt imm
  | .lui rt imm => encI 0x0F#6 0 rt imm
  | .mfc0 rt rd => encR 0x10#6 0x00 rt rd 0 0
  | .mtc0 rt rd => encR 0x10#6 0x04 rt rd 0 0
  | .rfe => encR 0x10#6 0x10 0 0 0 0x10#6
  | .lb rt rs imm => encI 0x20#6 rs rt imm
  | .lh rt rs imm => encI 0x21#6 rs rt imm
  | .lwl rt rs imm => encI 0x22#6 rs rt imm
  | .lw rt rs imm => encI 0x23#6 rs rt imm
  | .lbu rt rs imm => encI 0x24#6 rs rt imm
  | .lhu rt rs imm => encI 0x25#6 rs rt imm
  | .lwr rt rs imm => encI 0x26#6 rs rt imm
  | .sb rt rs imm => encI 0x28#6 rs rt imm
  | .sh rt rs imm => encI 0x29#6 rs rt imm
  | .swl rt rs imm => encI 0x2A#6 rs rt imm
  | .sw rt rs imm => encI 0x2B#6 rs rt imm
  | .swr rt rs imm => encI 0x2E#6 rs rt imm

/-! ## The opcode table as data (R96) -/

/-- The mnemonic of an instruction, as spec/opcode_table.json spells it. -/
def Instr.mnemonic : Instr → String
  | .sll .. => "sll"
  | .srl .. => "srl"
  | .sra .. => "sra"
  | .sllv .. => "sllv"
  | .srlv .. => "srlv"
  | .srav .. => "srav"
  | .jr .. => "jr"
  | .jalr .. => "jalr"
  | .syscall => "syscall"
  | .mfhi .. => "mfhi"
  | .mflo .. => "mflo"
  | .mult .. => "mult"
  | .multu .. => "multu"
  | .div .. => "div"
  | .divu .. => "divu"
  | .add .. => "add"
  | .addu .. => "addu"
  | .subu .. => "subu"
  | .and .. => "and"
  | .or .. => "or"
  | .xor .. => "xor"
  | .nor .. => "nor"
  | .slt .. => "slt"
  | .sltu .. => "sltu"
  | .bltz .. => "bltz"
  | .bgez .. => "bgez"
  | .bltzal .. => "bltzal"
  | .bgezal .. => "bgezal"
  | .j .. => "j"
  | .jal .. => "jal"
  | .beq .. => "beq"
  | .bne .. => "bne"
  | .blez .. => "blez"
  | .bgtz .. => "bgtz"
  | .addi .. => "addi"
  | .addiu .. => "addiu"
  | .slti .. => "slti"
  | .sltiu .. => "sltiu"
  | .andi .. => "andi"
  | .ori .. => "ori"
  | .xori .. => "xori"
  | .lui .. => "lui"
  | .mfc0 .. => "mfc0"
  | .mtc0 .. => "mtc0"
  | .rfe => "rfe"
  | .lb .. => "lb"
  | .lh .. => "lh"
  | .lwl .. => "lwl"
  | .lw .. => "lw"
  | .lbu .. => "lbu"
  | .lhu .. => "lhu"
  | .lwr .. => "lwr"
  | .sb .. => "sb"
  | .sh .. => "sh"
  | .swl .. => "swl"
  | .sw .. => "sw"
  | .swr .. => "swr"

/-- A row of R96: a word `w` is the instruction of the row when `w &&& mask = pattern`; `operands` holds the bits of
the operands the row uses. -/
structure OpcodeRow where
  mnemonic : String
  pattern : Word
  mask : Word
  operands : Word
deriving DecidableEq, Repr

/-- `w` is the instruction of the row (R96). -/
def OpcodeRow.holds (r : OpcodeRow) (w : Word) : Bool := w &&& r.mask == r.pattern

/-- R96 rows 1 to 24. -/
def opcodeRowsSpecial : List OpcodeRow :=
  [ ⟨"sll", 0x00000000, 0xFC00003F, 0x001FFFC0⟩,
    ⟨"srl", 0x00000002, 0xFC00003F, 0x001FFFC0⟩,
    ⟨"sra", 0x00000003, 0xFC00003F, 0x001FFFC0⟩,
    ⟨"sllv", 0x00000004, 0xFC00003F, 0x03FFF800⟩,
    ⟨"srlv", 0x00000006, 0xFC00003F, 0x03FFF800⟩,
    ⟨"srav", 0x00000007, 0xFC00003F, 0x03FFF800⟩,
    ⟨"jr", 0x00000008, 0xFC00003F, 0x03E00000⟩,
    ⟨"jalr", 0x00000009, 0xFC00003F, 0x03E0F800⟩,
    ⟨"syscall", 0x0000000C, 0xFC00003F, 0x00000000⟩,
    ⟨"mfhi", 0x00000010, 0xFC00003F, 0x0000F800⟩,
    ⟨"mflo", 0x00000012, 0xFC00003F, 0x0000F800⟩,
    ⟨"mult", 0x00000018, 0xFC00003F, 0x03FF0000⟩,
    ⟨"multu", 0x00000019, 0xFC00003F, 0x03FF0000⟩,
    ⟨"div", 0x0000001A, 0xFC00003F, 0x03FF0000⟩,
    ⟨"divu", 0x0000001B, 0xFC00003F, 0x03FF0000⟩,
    ⟨"add", 0x00000020, 0xFC00003F, 0x03FFF800⟩,
    ⟨"addu", 0x00000021, 0xFC00003F, 0x03FFF800⟩,
    ⟨"subu", 0x00000023, 0xFC00003F, 0x03FFF800⟩,
    ⟨"and", 0x00000024, 0xFC00003F, 0x03FFF800⟩,
    ⟨"or", 0x00000025, 0xFC00003F, 0x03FFF800⟩,
    ⟨"xor", 0x00000026, 0xFC00003F, 0x03FFF800⟩,
    ⟨"nor", 0x00000027, 0xFC00003F, 0x03FFF800⟩,
    ⟨"slt", 0x0000002A, 0xFC00003F, 0x03FFF800⟩,
    ⟨"sltu", 0x0000002B, 0xFC00003F, 0x03FFF800⟩]

/-- R96 rows 25 to 34. -/
def opcodeRowsBranch : List OpcodeRow :=
  [ ⟨"bltz", 0x04000000, 0xFC1F0000, 0x03E0FFFF⟩,
    ⟨"bgez", 0x04010000, 0xFC1F0000, 0x03E0FFFF⟩,
    ⟨"bltzal", 0x04100000, 0xFC1F0000, 0x03E0FFFF⟩,
    ⟨"bgezal", 0x04110000, 0xFC1F0000, 0x03E0FFFF⟩,
    ⟨"j", 0x08000000, 0xFC000000, 0x03FFFFFF⟩,
    ⟨"jal", 0x0C000000, 0xFC000000, 0x03FFFFFF⟩,
    ⟨"beq", 0x10000000, 0xFC000000, 0x03FFFFFF⟩,
    ⟨"bne", 0x14000000, 0xFC000000, 0x03FFFFFF⟩,
    ⟨"blez", 0x18000000, 0xFC000000, 0x03E0FFFF⟩,
    ⟨"bgtz", 0x1C000000, 0xFC000000, 0x03E0FFFF⟩]

/-- R96 rows 35 to 45. -/
def opcodeRowsImmediate : List OpcodeRow :=
  [ ⟨"addi", 0x20000000, 0xFC000000, 0x03FFFFFF⟩,
    ⟨"addiu", 0x24000000, 0xFC000000, 0x03FFFFFF⟩,
    ⟨"slti", 0x28000000, 0xFC000000, 0x03FFFFFF⟩,
    ⟨"sltiu", 0x2C000000, 0xFC000000, 0x03FFFFFF⟩,
    ⟨"andi", 0x30000000, 0xFC000000, 0x03FFFFFF⟩,
    ⟨"ori", 0x34000000, 0xFC000000, 0x03FFFFFF⟩,
    ⟨"xori", 0x38000000, 0xFC000000, 0x03FFFFFF⟩,
    ⟨"lui", 0x3C000000, 0xFC000000, 0x001FFFFF⟩,
    ⟨"mfc0", 0x40000000, 0xFFE00000, 0x001FF800⟩,
    ⟨"mtc0", 0x40800000, 0xFFE00000, 0x001FF800⟩,
    ⟨"rfe", 0x42000010, 0xFFE0003F, 0x00000000⟩]

/-- R96 rows 46 to 57. -/
def opcodeRowsMemory : List OpcodeRow :=
  [ ⟨"lb", 0x80000000, 0xFC000000, 0x03FFFFFF⟩,
    ⟨"lh", 0x84000000, 0xFC000000, 0x03FFFFFF⟩,
    ⟨"lwl", 0x88000000, 0xFC000000, 0x03FFFFFF⟩,
    ⟨"lw", 0x8C000000, 0xFC000000, 0x03FFFFFF⟩,
    ⟨"lbu", 0x90000000, 0xFC000000, 0x03FFFFFF⟩,
    ⟨"lhu", 0x94000000, 0xFC000000, 0x03FFFFFF⟩,
    ⟨"lwr", 0x98000000, 0xFC000000, 0x03FFFFFF⟩,
    ⟨"sb", 0xA0000000, 0xFC000000, 0x03FFFFFF⟩,
    ⟨"sh", 0xA4000000, 0xFC000000, 0x03FFFFFF⟩,
    ⟨"swl", 0xA8000000, 0xFC000000, 0x03FFFFFF⟩,
    ⟨"sw", 0xAC000000, 0xFC000000, 0x03FFFFFF⟩,
    ⟨"swr", 0xB8000000, 0xFC000000, 0x03FFFFFF⟩]

/-- R96, all 57 rows. -/
def opcodeTable : List OpcodeRow :=
  opcodeRowsSpecial ++ opcodeRowsBranch ++ opcodeRowsImmediate ++ opcodeRowsMemory

/-- The row of an instruction's mnemonic. -/
def Instr.row (i : Instr) : OpcodeRow :=
  (opcodeTable.find? (fun r => r.mnemonic == i.mnemonic)).getD ⟨"", 0, 0, 0⟩

end Sys2Proof
end

