-- ==== Sys2Proof/Config.lean ====
section
/-! DEFINITION. What one instance of the block fixes (00_scope.md R6, R34): the kinds of backend, the parameters
REGIONS, DEV and ISC_BIT as plain data, and the free values the spec leaves open (opaque, without a body).
The parameters' default VALUES stand in Machine/Parameters.lean. -/

namespace Sys2Proof

/-- The three memory arrays of the block (10_state.md R33). -/
inductive ArrayId where
  | ram
  | rom
  | scratch
deriving DecidableEq, Repr

/-- The peripheral handles of the region table (20_memory.md R58 rows 8 to 17). -/
inductive Dev where
  | exp1
  | memctl
  | irq
  | dma
  | timers
  | gpu
  | spu
  | exp2
deriving DecidableEq, Repr

/-- What an address range is routed to (20_memory.md R56). -/
inductive Backend where
  | array (a : ArrayId)
  | dev (d : Dev)
deriving DecidableEq, Repr

/-- One row of REGIONS: it matches `addr` when `base <= addr < base + size` (20_memory.md R56). -/
structure Region where
  base : Nat
  size : Nat
  backend : Backend
deriving DecidableEq, Repr

/-- The two forms 20_memory.md R62 gives the parameter DEV: the default stub (loads return 0), or an oracle
(a load returns any value, with no law between two reads). Neither lets a store change the block. -/
inductive DevModel where
  | stub
  | oracle
deriving DecidableEq, Repr

/-- The width of one bus operation (20_memory.md R50): 1, 2 or 4 bytes. -/
inductive Width where
  | byte
  | half
  | word
deriving DecidableEq, Repr

/-- The parameters the host supplies before reset and that are immutable afterwards (R6, R34, R256). -/
structure Params where
  /-- ISC_BIT, the bit of `sr` that isolates the cache (R64, D4). -/
  iscBit : Fin 32
  /-- REGIONS, the address map (R56, R58). -/
  regions : List Region
  /-- DEV, the peripheral backends (R62). -/
  dev : DevModel
deriving DecidableEq, Repr

/-- Free value (log 4; U6): what the oracle DEV answers to the load that is the `n`-th free value of the run,
given the handle, the width and the raw address. -/
opaque Config.devLoad : Nat → Dev → Width → Word → Word

/-- Free value (log 8; U3): whether the `n`-th free choice of the run samples register 31 after the link write
of `bltzal`/`bgezal` (true) or before it (false). -/
opaque Config.linkBranchSamplesLink : Nat → Bool

/-- Free value (log 9; U4): whether the `n`-th free choice of the run samples the target of `jalr` after its link
write (true) or before it (false). -/
opaque Config.jalrSamplesLink : Nat → Bool

end Sys2Proof
end

