-- ==== Sys2Proof/Machine/Parameters.lean ====
section
/-! DEFINITION. The fixed numbers of the block and the default values of its parameters (00_scope.md R6). -/

namespace Sys2Proof.Machine

/-- RESET_PC (10_state.md R40). -/
def resetPc : Word := 0xBFC00000

/-- `sr` at reset (R40). -/
def resetSr : Word := 0x00000000

/-- VEC_BOOT, the handler when `sr[22] = 1` (60_exceptions.md R224). -/
def vecBoot : Word := 0xBFC00180

/-- VEC_RAM, the handler when `sr[22] = 0` (R224). -/
def vecRam : Word := 0x80000080

/-- BEV_BIT, the bootstrap exception vector bit of `sr` (10_state.md R28). -/
def bevBit : Nat := 22

/-- SR_INDEX (10_state.md R26, D3). -/
def srIndex : Reg := 12

/-- CAUSE_INDEX (R26, D3). -/
def causeIndex : Reg := 13

/-- EPC_INDEX (R26, D3). -/
def epcIndex : Reg := 14

/-- The link register of `jal`, `bltzal` and `bgezal` (10_state.md R24). -/
def linkReg : Reg := 31

/-- RAM_SIZE, ROM_SIZE, SCRATCH_SIZE in bytes (10_state.md R33). -/
def arraySize : ArrayId → Nat
  | .ram => 0x200000
  | .rom => 0x80000
  | .scratch => 0x400

/-- The local index of an address in an array: the address masked to the array's size (R33; every size is a power
of two, so `addr & (size - 1)` is the remainder). -/
def localIndex (a : ArrayId) (addr : Word) : Nat := addr.toNat % arraySize a

/-- The number of bytes of one bus operation (20_memory.md R50). -/
def widthBytes : Width → Nat
  | .byte => 1
  | .half => 2
  | .word => 4

/-- The rows of REGIONS the document itself fixes: 1, 2, 3 and 6 (20_memory.md R58). -/
def fixedRegions : List Region :=
  [⟨0x00000000, 0x200000, .array .ram⟩,
   ⟨0x80000000, 0x200000, .array .ram⟩,
   ⟨0xA0000000, 0x200000, .array .ram⟩,
   ⟨0xBFC00000, 0x80000, .array .rom⟩]

/-- REGIONS by default, all 17 rows (20_memory.md R58). -/
def defaultRegions : List Region :=
  [⟨0x00000000, 0x200000, .array .ram⟩,
   ⟨0x80000000, 0x200000, .array .ram⟩,
   ⟨0xA0000000, 0x200000, .array .ram⟩,
   ⟨0x1FC00000, 0x80000, .array .rom⟩,
   ⟨0x9FC00000, 0x80000, .array .rom⟩,
   ⟨0xBFC00000, 0x80000, .array .rom⟩,
   ⟨0x1F800000, 0x400, .array .scratch⟩,
   ⟨0x1F000000, 0x800000, .dev .exp1⟩,
   ⟨0x1F801000, 0x24, .dev .memctl⟩,
   ⟨0x1F801060, 0x4, .dev .memctl⟩,
   ⟨0x1F801070, 0x8, .dev .irq⟩,
   ⟨0x1F801080, 0x80, .dev .dma⟩,
   ⟨0x1F801100, 0x30, .dev .timers⟩,
   ⟨0x1F801810, 0x8, .dev .gpu⟩,
   ⟨0x1F801C00, 0x280, .dev .spu⟩,
   ⟨0x1F802000, 0x80, .dev .exp2⟩,
   ⟨0xFFFE0130, 0x4, .dev .memctl⟩]

/-- The parameters by default: ISC_BIT = 16 (D4), REGIONS = R58 (D17), DEV = the stub (R62, D24). -/
def defaultParams : Params := ⟨16, defaultRegions, .stub⟩

/-- `base <= addr < base + size`, unsigned (R56). -/
def regionMatches (addr : Word) (r : Region) : Bool :=
  decide (r.base ≤ addr.toNat) && decide (addr.toNat < r.base + r.size)

/-- Classify(addr) (R56): the backend of the row that matches, none when no row does. -/
def classify (rs : List Region) (addr : Word) : Option Backend :=
  (rs.find? (regionMatches addr)).map Region.backend

/-- Two rows share no address. -/
def regionsApart (r q : Region) : Bool :=
  decide (r.base + r.size ≤ q.base) || decide (q.base + q.size ≤ r.base)

/-- A row is inside the address space and aligned: base and size are multiples of 4, `base + size <= 2^32` (R56). -/
def regionAligned (r : Region) : Bool :=
  decide (r.base % 4 = 0) && decide (r.size % 4 = 0) && decide (r.base + r.size ≤ 2 ^ 32)

/-- The rows are pairwise disjoint (R56). -/
def regionsDisjoint : List Region → Bool
  | [] => true
  | r :: rs => rs.all (regionsApart r) && regionsDisjoint rs

/-- A table R56 and R58 admit: aligned rows, pairwise disjoint, with the document's four fixed rows among them. -/
def regionsWf (rs : List Region) : Bool :=
  rs.all regionAligned && regionsDisjoint rs && fixedRegions.all (fun r => rs.contains r)

/-- D4: ISC_BIT differs from the mode-stack bits 0 to 5 and from bit 22. -/
def iscBitWf (b : Fin 32) : Bool := decide (5 < b.val) && decide (b.val ≠ bevBit)

/-- Parameters the spec admits. -/
def paramsWf (p : Params) : Bool := regionsWf p.regions && iscBitWf p.iscBit

end Sys2Proof.Machine
end

