-- ==== Sys2Proof/Machine/State.lean ====
section
/-! DEFINITION. The state of the block (10_state.md), as plain data; the reasons a step can stop; the state after
reset. Registers are read and written through the accessors of Machine/Ops.lean, memory arrays through those of
Machine/Memory.lean. -/

namespace Sys2Proof.Machine

/-- One memory array: (local index, byte) pairs in canonical form (Memory.wf of Machine/Memory.lean). -/
abbrev Memory := List Host.Cell

/-- What an access is for (10_state.md R36). -/
inductive AccessKind where
  | fetch
  | load
  | store
deriving DecidableEq, Repr

/-- Why the halt latch is set (R36). -/
inductive HaltReason where
  /-- A word of R98 was executed at `addr`. -/
  | unimplementedOpcode (word addr : Word)
  /-- An access to `addr`, which is in no region (20_memory.md R63). -/
  | unmappedAddress (addr : Word) (kind : AccessKind)
deriving DecidableEq, Repr

/-- The halt latch (R36). -/
inductive Halt where
  | running
  | halted (r : HaltReason)
deriving DecidableEq, Repr

/-- The four exceptions of the block (60_exceptions.md R220). -/
inductive ExcCode where
  /-- Address error on load or fetch, code 4. -/
  | adEL
  /-- Address error on store, code 5. -/
  | adES
  /-- System call, code 8. -/
  | sys
  /-- Signed overflow, code 12. -/
  | ov
deriving DecidableEq, Repr

/-- One bus operation forwarded to a peripheral (20_memory.md R62): the handle, the width, the raw address, and for a
store its value. -/
inductive DevCall where
  | load (d : Dev) (n : Width) (addr : Word)
  | store (d : Dev) (n : Width) (addr : Word) (v : Word)
deriving DecidableEq, Repr

structure State where
  /-- The address the next fetch reads from (R20). -/
  pc : Word
  /-- The address the fetch after that reads from (R20). -/
  nextPc : Word
  /-- The address of the instruction being executed (R20). -/
  currentPc : Word
  /-- Storage of `x[0..31]` (R23); slot 0 is never read nor written by an instruction. -/
  regs : Vector Word 32
  /-- Upper multiply half, division remainder (R25). -/
  hi : Word
  /-- Lower multiply half, division quotient (R25). -/
  lo : Word
  /-- The coprocessor-0 bank; `sr`, `cause`, `epc` are words 12, 13, 14 of it (R26). -/
  cp0 : Vector Word 32
  /-- The halt latch (R36). -/
  halt : Halt
  /-- RAM (R33). -/
  ram : Memory
  /-- The BIOS ROM (R33). -/
  rom : Memory
  /-- The scratchpad (R33). -/
  scratch : Memory
  /-- The parameters ISC_BIT, REGIONS, DEV (R34), written by no step (log 4). -/
  params : Params
  /-- The model's own: bus operations forwarded to peripherals so far, oldest first (log 6). -/
  devCalls : List DevCall
  /-- The model's own: how many free values the run has taken (log 5). -/
  draws : Nat
deriving DecidableEq, Repr

/-- Why no step exists. -/
inductive Fault where
  /-- Raised by `step` alone, from a state whose halt latch is set (10_state.md R36, 40_cycle.md R114). Safe: nothing
  is claimed past a halt. -/
  | latched (r : HaltReason)
deriving DecidableEq, Repr

/-- Why an instruction has no meaning. -/
inductive Refusal where
  /-- An instruction this model gives no meaning yet, raised by an arm of `exec`; no arm raises it. Safe. -/
  | notModelled (mnemonic : String)
deriving DecidableEq, Repr

/-- The state after reset (R40): `pc`, `nextPc`, `sr`, `x[0]` and `halt` as the spec says; every other register 0 and
the arrays unlisted (DESIGN CHOICE, log 1, 2, 3); the default parameters (log 4). -/
def State.reset : State where
  pc := resetPc
  nextPc := resetPc + 4
  currentPc := 0
  regs := Vector.replicate 32 0
  hi := 0
  lo := 0
  cp0 := (Vector.replicate 32 0).set 12 resetSr
  halt := .running
  ram := []
  rom := []
  scratch := []
  params := defaultParams
  devCalls := []
  draws := 0

end Sys2Proof.Machine
end

