-- ==== Sys2Proof/Machine/Memory.lean ====
section
/-! DEFINITION. The memory arrays (10_state.md R33): reading and writing one byte, the canonical form, and the
little-endian assembly of wider accesses (20_memory.md R52, R53, R65), decided here and nowhere else. -/

namespace Sys2Proof.Machine

/-- What a byte of an array that is not listed reads as (log 2, 3). -/
def blankByte : Byte := 0

/-- One byte of an array. -/
def Memory.read : Memory → Nat → Byte
  | [], _ => blankByte
  | (k, v) :: m, a => if k = a then v else Memory.read m a

/-- An array with the byte at `a` replaced, kept in canonical form: storing the blank byte removes the entry. -/
def Memory.write : Memory → Nat → Byte → Memory
  | [], a, b => if b = blankByte then [] else [(a, b)]
  | (k, v) :: m, a, b =>
    if k < a then (k, v) :: Memory.write m a b
    else if k = a then (if b = blankByte then m else (a, b) :: m)
    else (if b = blankByte then (k, v) :: m else (a, b) :: (k, v) :: m)

/-- Indexes strictly rising from at least `lo`, all below `size`, no entry equal to the blank byte. -/
def Memory.wfFrom (size : Nat) : Nat → Memory → Bool
  | _, [] => true
  | lo, (k, v) :: m => decide (lo ≤ k) && decide (k < size) && decide (v ≠ blankByte) && Memory.wfFrom size (k + 1) m

/-- The canonical form of an array of `size` bytes. -/
def Memory.wf (size : Nat) (m : Memory) : Bool := Memory.wfFrom size 0 m

/-- The array that holds the bytes of a list from index `i` up. -/
def Memory.ofBytes : List Byte → Nat → Memory
  | [], _ => []
  | b :: bs, i => if b = blankByte then Memory.ofBytes bs (i + 1) else (i, b) :: Memory.ofBytes bs (i + 1)

/-- LE(A, i, n) of R52, zero-extended to 32 bits: the byte at the lowest index is bits 7:0. -/
def readLE (m : Memory) (i : Nat) : Width → Word
  | .byte => (Memory.read m i).setWidth 32
  | .half => (Memory.read m (i + 1) ++ Memory.read m i).setWidth 32
  | .word => wordOfBytes (Memory.read m i) (Memory.read m (i + 1)) (Memory.read m (i + 2)) (Memory.read m (i + 3))

/-- StoreLE(A, i, n, v) of R53: byte `i + k` becomes `v[8k+7 : 8k]`. -/
def writeLE (m : Memory) (i : Nat) (n : Width) (v : Word) : Memory :=
  match n with
  | .byte => Memory.write m i (byteOf v 0)
  | .half => Memory.write (Memory.write m i (byteOf v 0)) (i + 1) (byteOf v 1)
  | .word =>
    Memory.write (Memory.write (Memory.write (Memory.write m i (byteOf v 0)) (i + 1) (byteOf v 1)) (i + 2)
      (byteOf v 2)) (i + 3) (byteOf v 3)

/-- The array of a state (R33). -/
def State.array (s : State) : ArrayId → Memory
  | .ram => s.ram
  | .rom => s.rom
  | .scratch => s.scratch

/-- A state with one array replaced. -/
def State.setArray (s : State) (a : ArrayId) (m : Memory) : State :=
  match a with
  | .ram => { s with ram := m }
  | .rom => { s with rom := m }
  | .scratch => { s with scratch := m }

/-- One byte of one array of a state: `RAM[i]`, `ROM[i]` or `SCRATCH[i]` (R33). -/
def State.cell (s : State) (a : ArrayId) (i : Nat) : Byte := Memory.read (s.array a) i

/-- The three arrays of a state are in canonical form. -/
def State.arraysWf (s : State) : Bool :=
  Memory.wf (arraySize .ram) s.ram && Memory.wf (arraySize .rom) s.rom && Memory.wf (arraySize .scratch) s.scratch

/-- The host supplies the BIOS image before the first fetch: exactly 524,288 bytes, byte `k` of it is `ROM[k]`; any
other length starts no run (70_reset_and_hazards.md R254, U15). -/
def State.loadBios (s : State) (image : List Byte) : Option State :=
  if image.length = arraySize .rom then some (s.setArray .rom (Memory.ofBytes image 0)) else none

end Sys2Proof.Machine
end

