-- ==== Sys2Proof/Machine/Ops.lean ====
section
/-! DEFINITION. The named operations over registers; taking an exception and popping the mode stack; reset as an input. -/

namespace Sys2Proof.Machine

/-! ## General registers (10_state.md R23) -/

/-- `read_register(index)`: 0 for index 0. -/
def State.reg (s : State) (r : Reg) : Word := if r = 0 then 0 else s.regs[r.val]

/-- `write_register(index, value)`: discarded for index 0. -/
def State.setReg (s : State) (r : Reg) (v : Word) : State :=
  if r = 0 then s else { s with regs := s.regs.set r.val v }

/-! ## The coprocessor-0 bank (R26, R27): one storage, a flat view and a named view -/

def State.cp0Word (s : State) (k : Reg) : Word := s.cp0[k.val]

def State.setCp0Word (s : State) (k : Reg) (v : Word) : State := { s with cp0 := s.cp0.set k.val v }

/-- The status register (R28). -/
def State.sr (s : State) : Word := s.cp0Word srIndex

/-- The cause register (R29). -/
def State.cause (s : State) : Word := s.cp0Word causeIndex

/-- The exception program counter (R30). -/
def State.epc (s : State) : Word := s.cp0Word epcIndex

/-- The cache-isolated bit of `sr` (R28, 20_memory.md R64). -/
def State.cacheIsolated (s : State) : Bool := s.sr.getLsbD s.params.iscBit.val

/-! ## The other registers -/

/-- The multiply and divide results (R25). -/
def State.setHiLo (s : State) (hi lo : Word) : State := { s with hi := hi, lo := lo }

/-- A control transfer writes `next_pc` alone (00_scope.md R12). -/
def State.setNextPc (s : State) (target : Word) : State := { s with nextPc := target }

/-- `halt <- Halted(reason)` (R36). -/
def State.setHalted (s : State) (r : HaltReason) : State := { s with halt := .halted r }

/-- One more free value has been taken (log 5). -/
def State.countDraw (s : State) : State := { s with draws := s.draws + 1 }

/-- A bus operation has been forwarded to a peripheral (20_memory.md R62; log 6). -/
def State.logDevCall (s : State) (c : DevCall) : State := { s with devCalls := s.devCalls ++ [c] }

/-! ## Exceptions (60_exceptions.md) -/

/-- The 5-bit cause code (R220). -/
def causeCode : ExcCode → BitVec 5
  | .adEL => 4
  | .adES => 5
  | .sys => 8
  | .ov => 12

/-- Effect (2) of R224: the mode stack is shifted up by one pair, bits 31:6 kept (R227). -/
def pushModes (sr : Word) : Word := (sr &&& 0xFFFFFFC0) ||| ((sr <<< 2) &&& 0x3F)

/-- The pop of `rfe`: the mode stack is shifted down by one pair, bits 31:6 kept (48_cop0_system.md R212). -/
def popModes (sr : Word) : Word := (sr &&& 0xFFFFFFC0) ||| ((sr &&& 0x3F) >>> 2)

/-- Effect (1) of R224: which of the two fixed handlers (R225). -/
def handlerAddress (s : State) : Word := if s.sr.getLsbD bevBit then vecBoot else vecRam

/-- Effect (3) of R224: the whole cause register, `code << 2` (10_state.md R29). -/
def causeWord (c : ExcCode) : Word := (causeCode c).setWidth 32 <<< 2

/-- Effect (4) of R224: `current_pc`, or `current_pc - 4` when the delay-slot heuristic fires (R226). -/
def savedPc (s : State) : Word := if s.pc ≠ s.currentPc + 4 then s.currentPc - 4 else s.currentPc

/-- The exception entry `raise Exc(code)`, the five effects of R224, each read from the state before the entry. -/
def raiseExc (c : ExcCode) (s : State) : State :=
  { (((s.setCp0Word srIndex (pushModes s.sr)).setCp0Word causeIndex (causeWord c)).setCp0Word epcIndex (savedPc s)) with
    pc := handlerAddress s, nextPc := handlerAddress s + 4 }

/-- The return beside it: `rfe` pops the mode stack and restores nothing else (R212, R232). -/
def restoreModes (s : State) : State := s.setCp0Word srIndex (popModes s.sr)

/-! ## Reset as an input of the running block (70_reset_and_hazards.md R250 to R252) -/

/-- The host asserts reset: what R251 names takes its reset value, everything else keeps the value it had (D25). -/
def State.assertReset (s : State) : State :=
  { s.setCp0Word srIndex resetSr with
    pc := resetPc, nextPc := resetPc + 4, regs := s.regs.set 0 0, halt := .running }

end Sys2Proof.Machine
end

