-- ==== Sys2Proof/Machine/Flags.lean ====
section
/-! DEFINITION. The block has no flags (10_state.md R38). What other machines keep in flags is computed here: the signed
overflow test of `add` and `addi`, and the 0 or 1 a compare writes. -/

namespace Sys2Proof.Machine

/-- INT32_MAX (00_scope.md R8). -/
def int32Max : Int := 2 ^ 31 - 1

/-- INT32_MIN (R8). -/
def int32Min : Int := -(2 ^ 31)

/-- The overflow test of 42_arith.md R130 and R133, in unbounded integers, by the sign of the first operand. -/
def addOverflows (x y : Word) : Bool :=
  let a := x.toInt
  let b := y.toInt
  if 0 ≤ a then decide (int32Max - a < b) else decide (b < int32Min - a)

/-- 1 if the comparison holds, else 0 (44_logic_compare.md R154, R155). -/
def boolWord (b : Bool) : Word := if b then 1 else 0

/-- `a <s b` (R8). -/
def lessSigned (a b : Word) : Bool := decide (a.toInt < b.toInt)

/-- `a <u b` (R8). -/
def lessUnsigned (a b : Word) : Bool := decide (a.toNat < b.toNat)

end Sys2Proof.Machine
end

