-- ==== Sys2Proof/Machine/Operands.lean ====
section
/-! DEFINITION. How each operand is assembled from the instruction's bits (30_encoding.md R93). -/

namespace Sys2Proof.Machine

/-- `sext_16(imm)` (00_scope.md R8). -/
def sext16 (imm : BitVec 16) : Word := imm.signExtend 32

/-- `zext_16(imm)` (R8). -/
def zext16 (imm : BitVec 16) : Word := imm.setWidth 32

/-- `sext_8` of the low byte of a bus value. -/
def sextByte (v : Word) : Word := (v.setWidth 8).signExtend 32

/-- `sext_16` of the low halfword of a bus value. -/
def sextHalf (v : Word) : Word := (v.setWidth 16).signExtend 32

/-- The immediate of `lui`, `imm << 16` (44_logic_compare.md R161). -/
def upperImm (imm : BitVec 16) : Word := imm ++ (0 : BitVec 16)

/-- The effective address of every load and store, `x[rs] + sext_16(imm)` modulo 2^32 (47_load_store.md R190). -/
def effAddr (s : State) (rs : Reg) (imm : BitVec 16) : Word := s.reg rs + sext16 imm

/-- The address of the aligned word that holds `ea`: `ea & 0xFFFFFFFC` (R198 to R201). -/
def alignedAddr (ea : Word) : Word := ea &&& 0xFFFFFFFC

/-- BranchTarget, `pc + (sext_16(imm) << 2)` with the advanced `pc` (45_branch.md R178). -/
def branchTarget (s : State) (imm : BitVec 16) : Word := s.pc + (sext16 imm <<< 2)

/-- The target of `j` and `jal`, `(pc & 0xF0000000) | (target << 2)` (46_jump.md R180). -/
def jumpTarget (s : State) (target : BitVec 26) : Word := (s.pc &&& 0xF0000000) ||| (target.setWidth 32 <<< 2)

/-- The link value, `pc + 4`: the address after the delay slot (R178, R184). -/
def linkValue (s : State) : Word := s.pc + 4

/-- The amount of a variable shift, `x[rs][4:0]` (41_shift.md R123). -/
def shiftAmount (s : State) (rs : Reg) : Nat := ((s.reg rs).setWidth 5).toNat

end Sys2Proof.Machine
end

