-- ==== Sys2Proof/Machine/Arith.lean ====
section
/-! DEFINITION. Add and subtract (42_arith.md R130 to R134). -/

namespace Sys2Proof.Machine

/-- The trapping addition of R130 and R133: on signed overflow the write is skipped and code 12 is raised, otherwise
the sum is written. -/
def addTrapping (rd : Reg) (x y : Word) (s : State) : State :=
  if addOverflows x y then raiseExc .ov s else s.setReg rd (x + y)

/-- R130. -/
def execAdd (rd rs rt : Reg) (s : State) : Host.Outcome State Fault Refusal :=
  .next (addTrapping rd (s.reg rs) (s.reg rt) s)

/-- R131. -/
def execAddu (rd rs rt : Reg) (s : State) : Host.Outcome State Fault Refusal :=
  .next (s.setReg rd (s.reg rs + s.reg rt))

/-- R132. -/
def execSubu (rd rs rt : Reg) (s : State) : Host.Outcome State Fault Refusal :=
  .next (s.setReg rd (s.reg rs - s.reg rt))

/-- R133. -/
def execAddi (rt rs : Reg) (imm : BitVec 16) (s : State) : Host.Outcome State Fault Refusal :=
  .next (addTrapping rt (s.reg rs) (sext16 imm) s)

/-- R134. -/
def execAddiu (rt rs : Reg) (imm : BitVec 16) (s : State) : Host.Outcome State Fault Refusal :=
  .next (s.setReg rt (s.reg rs + sext16 imm))

end Sys2Proof.Machine
end

