-- ==== Sys2Proof/Machine/Branch.lean ====
section
/-! DEFINITION. Conditional branches (45_branch.md R170 to R178). A branch writes `next_pc` alone: the delay slot at `pc`
always executes. A branch in a delay slot is executed literally (U16). -/

namespace Sys2Proof.Machine

/-- R178: taken, `next_pc` becomes the target; not taken, it keeps `pc + 4`. -/
def branchIf (cond : Bool) (imm : BitVec 16) (s : State) : State :=
  s.setNextPc (if cond then branchTarget s imm else s.nextPc)

/-- The signed conditions on one register (R172 to R177). -/
def isNegative (v : Word) : Bool := decide (v.toInt < 0)

/-- See `isNegative`. -/
def isNotPositive (v : Word) : Bool := decide (v.toInt ≤ 0)

/-- The link write (R176, R177): register 31 takes `pc + 4`, taken or not. -/
def writeLink (s : State) : State := s.setReg linkReg (linkValue s)

/-- The value a link branch tests when its register is 31 (U3): the spec does not order the sample against the link
write, so a free choice decides between the two (log 8). -/
def sampledLink (s : State) : Word :=
  if Config.linkBranchSamplesLink s.draws then linkValue s else s.reg linkReg

/-- R176 and R177: the link first, then the branch; with `rs = 31` the tested value is `sampledLink`. -/
def branchLinkIf (cond : Word → Bool) (rs : Reg) (imm : BitVec 16) (s : State) : State :=
  if rs = linkReg then branchIf (cond (sampledLink s)) imm (writeLink s).countDraw
  else branchIf (cond (s.reg rs)) imm (writeLink s)

/-- R170. -/
def execBeq (rs rt : Reg) (imm : BitVec 16) (s : State) : Host.Outcome State Fault Refusal :=
  .next (branchIf (s.reg rs == s.reg rt) imm s)

/-- R171. -/
def execBne (rs rt : Reg) (imm : BitVec 16) (s : State) : Host.Outcome State Fault Refusal :=
  .next (branchIf (s.reg rs != s.reg rt) imm s)

/-- R172. -/
def execBlez (rs : Reg) (imm : BitVec 16) (s : State) : Host.Outcome State Fault Refusal :=
  .next (branchIf (isNotPositive (s.reg rs)) imm s)

/-- R173. -/
def execBgtz (rs : Reg) (imm : BitVec 16) (s : State) : Host.Outcome State Fault Refusal :=
  .next (branchIf (!isNotPositive (s.reg rs)) imm s)

/-- R174. -/
def execBltz (rs : Reg) (imm : BitVec 16) (s : State) : Host.Outcome State Fault Refusal :=
  .next (branchIf (isNegative (s.reg rs)) imm s)

/-- R175. -/
def execBgez (rs : Reg) (imm : BitVec 16) (s : State) : Host.Outcome State Fault Refusal :=
  .next (branchIf (!isNegative (s.reg rs)) imm s)

/-- R176. -/
def execBltzal (rs : Reg) (imm : BitVec 16) (s : State) : Host.Outcome State Fault Refusal :=
  .next (branchLinkIf isNegative rs imm s)

/-- R177. -/
def execBgezal (rs : Reg) (imm : BitVec 16) (s : State) : Host.Outcome State Fault Refusal :=
  .next (branchLinkIf (fun v => !isNegative v) rs imm s)

end Sys2Proof.Machine
end

