-- ==== Sys2Proof/Machine/Jump.lean ====
section
/-! DEFINITION. Jumps (46_jump.md R180 to R184). A jump writes `next_pc` alone, checks no alignment and is always taken. -/

namespace Sys2Proof.Machine

/-- The target a `jalr` samples when `rd = rs`, not 0 (U4): the spec does not order the sample against the link write,
so a free choice decides between the two (log 9). -/
def sampledTarget (rs : Reg) (s : State) : Word :=
  if Config.jalrSamplesLink s.draws then linkValue s else s.reg rs

/-- R180. -/
def execJ (target : BitVec 26) (s : State) : Host.Outcome State Fault Refusal :=
  .next (s.setNextPc (jumpTarget s target))

/-- R181. -/
def execJal (target : BitVec 26) (s : State) : Host.Outcome State Fault Refusal :=
  .next ((s.setReg linkReg (linkValue s)).setNextPc (jumpTarget s target))

/-- R182: all 32 bits, no masking. -/
def execJr (rs : Reg) (s : State) : Host.Outcome State Fault Refusal :=
  .next (s.setNextPc (s.reg rs))

/-- R183: the target is sampled before the link write, but for the open form `rd = rs`, not 0. -/
def execJalr (rd rs : Reg) (s : State) : Host.Outcome State Fault Refusal :=
  .next (
    if rd = rs ∧ rs ≠ 0 then ((s.setReg rd (linkValue s)).setNextPc (sampledTarget rs s)).countDraw
    else (s.setReg rd (linkValue s)).setNextPc (s.reg rs))

end Sys2Proof.Machine
end

