-- ==== Sys2Proof/Machine/Bus.lean ====
section
/-! DEFINITION. The memory-bus dispatcher: alignment check, classification, forwarding (20_memory.md R50 to R64). -/

namespace Sys2Proof.Machine

/-- How a read ended: with a value (R52; the exception entry of a misaligned access has then run, and the value is the
dummy 0), or with the halt latch set (R63). -/
inductive ReadResult where
  | value (v : Word) (s : State)
  | halted (s : State)
deriving DecidableEq, Repr

/-- `addr mod n = 0` (R54). -/
def aligned (addr : Word) (n : Width) : Bool := addr.toNat % widthBytes n == 0

/-- A value of `8n` bits, zero-extended to a word (R52, R62). -/
def truncTo (n : Width) (v : Word) : Word :=
  match n with
  | .byte => (v.setWidth 8).setWidth 32
  | .half => (v.setWidth 16).setWidth 32
  | .word => v

/-- `DEV.load(d, n, addr)` (R62): the call leaves the block with the raw address and the width; the stub answers 0, the
oracle a free value. No other part of the block's state changes. -/
def devLoad (d : Dev) (n : Width) (addr : Word) (s : State) : ReadResult :=
  match s.params.dev with
  | .stub => .value 0 (s.logDevCall (.load d n addr))
  | .oracle => .value (truncTo n (Config.devLoad s.draws d n addr)) (s.logDevCall (.load d n addr)).countDraw

/-- `DEV.store(d, n, addr, v)` (R62): the call leaves the block and changes nothing in it. -/
def devStore (d : Dev) (n : Width) (addr v : Word) (s : State) : State := s.logDevCall (.store d n addr (truncTo n v))

/-- `MemRead(addr, n)` (R52), `kind` saying whether the fetch or a load asked. -/
def memRead (kind : AccessKind) (addr : Word) (n : Width) (s : State) : ReadResult :=
  if aligned addr n then
    match classify s.params.regions addr with
    | none => .halted (s.setHalted (.unmappedAddress addr kind))
    | some (.array a) => .value (readLE (s.array a) (localIndex a addr) n) s
    | some (.dev d) => devLoad d n addr s
  else .value 0 (raiseExc .adEL s)

/-- A store that reaches an array (R53 stage 3): RAM unless the cache is isolated (R64), the scratchpad always, ROM
never (R60, D18). -/
def arrayStore (a : ArrayId) (addr : Word) (n : Width) (v : Word) (s : State) : State :=
  match a with
  | .ram => if s.cacheIsolated then s else s.setArray .ram (writeLE s.ram (localIndex .ram addr) n v)
  | .rom => s
  | .scratch => s.setArray .scratch (writeLE s.scratch (localIndex .scratch addr) n v)

/-- `MemWrite(addr, n, v)` (R53). -/
def memWrite (addr : Word) (n : Width) (v : Word) (s : State) : State :=
  if aligned addr n then
    match classify s.params.regions addr with
    | none => s.setHalted (.unmappedAddress addr .store)
    | some (.array a) => arrayStore a addr n v s
    | some (.dev d) => devStore d n addr v s
  else raiseExc .adES s

end Sys2Proof.Machine
end

