-- ==== Sys2Proof/Machine/LoadStore.lean ====
section
/-! DEFINITION. Loads and stores (47_load_store.md R190 to R202). -/

namespace Sys2Proof.Machine

/-- The end of a load: the value the access returned, extended, goes to `x[rt]`, also after an address error, whose
value is the dummy 0 (R190 (c), D9); with the latch set nothing more changes (R190 (d)). -/
def finishLoad (rt : Reg) (extend : Word → Word) : ReadResult → State
  | .value v t => t.setReg rt (extend v)
  | .halted t => t

/-- The end of `swl` and `swr`: the merged word is written back to the aligned address, unless the read halted. -/
def finishMerge (al : Word) (merge : Word → Word) : ReadResult → State
  | .value m t => memWrite al .word (merge m) t
  | .halted t => t

/-- The case table of `lwl` (R198): `r` the register before, `m` the aligned word, `k = ea[1:0]`. -/
def mergeLwl (k : BitVec 2) (r m : Word) : Word :=
  match k with
  | 0#2 => (r &&& 0x00FFFFFF) ||| (m <<< 24)
  | 1#2 => (r &&& 0x0000FFFF) ||| (m <<< 16)
  | 2#2 => (r &&& 0x000000FF) ||| (m <<< 8)
  | 3#2 => m

/-- The case table of `lwr` (R199). -/
def mergeLwr (k : BitVec 2) (r m : Word) : Word :=
  match k with
  | 0#2 => m
  | 1#2 => (r &&& 0xFF000000) ||| (m >>> 8)
  | 2#2 => (r &&& 0xFFFF0000) ||| (m >>> 16)
  | 3#2 => (r &&& 0xFFFFFF00) ||| (m >>> 24)

/-- The case table of `swl` (R200): the word to store. -/
def mergeSwl (k : BitVec 2) (r m : Word) : Word :=
  match k with
  | 0#2 => (m &&& 0xFFFFFF00) ||| (r >>> 24)
  | 1#2 => (m &&& 0xFFFF0000) ||| (r >>> 16)
  | 2#2 => (m &&& 0xFF000000) ||| (r >>> 8)
  | 3#2 => r

/-- The case table of `swr` (R201). -/
def mergeSwr (k : BitVec 2) (r m : Word) : Word :=
  match k with
  | 0#2 => r
  | 1#2 => (m &&& 0x000000FF) ||| (r <<< 8)
  | 2#2 => (m &&& 0x0000FFFF) ||| (r <<< 16)
  | 3#2 => (m &&& 0x00FFFFFF) ||| (r <<< 24)

/-- `ea[1:0]`. -/
def lowBits (ea : Word) : BitVec 2 := ea.extractLsb' 0 2

/-- R191. -/
def execLb (rt rs : Reg) (imm : BitVec 16) (s : State) : Host.Outcome State Fault Refusal :=
  .next (finishLoad rt sextByte (memRead .load (effAddr s rs imm) .byte s))

/-- R192. -/
def execLbu (rt rs : Reg) (imm : BitVec 16) (s : State) : Host.Outcome State Fault Refusal :=
  .next (finishLoad rt (truncTo .byte) (memRead .load (effAddr s rs imm) .byte s))

/-- R193. -/
def execLh (rt rs : Reg) (imm : BitVec 16) (s : State) : Host.Outcome State Fault Refusal :=
  .next (finishLoad rt sextHalf (memRead .load (effAddr s rs imm) .half s))

/-- R194. -/
def execLhu (rt rs : Reg) (imm : BitVec 16) (s : State) : Host.Outcome State Fault Refusal :=
  .next (finishLoad rt (truncTo .half) (memRead .load (effAddr s rs imm) .half s))

/-- R195. -/
def execLw (rt rs : Reg) (imm : BitVec 16) (s : State) : Host.Outcome State Fault Refusal :=
  .next (finishLoad rt (truncTo .word) (memRead .load (effAddr s rs imm) .word s))

/-- R198. -/
def execLwl (rt rs : Reg) (imm : BitVec 16) (s : State) : Host.Outcome State Fault Refusal :=
  .next (finishLoad rt (mergeLwl (lowBits (effAddr s rs imm)) (s.reg rt))
    (memRead .load (alignedAddr (effAddr s rs imm)) .word s))

/-- R199. -/
def execLwr (rt rs : Reg) (imm : BitVec 16) (s : State) : Host.Outcome State Fault Refusal :=
  .next (finishLoad rt (mergeLwr (lowBits (effAddr s rs imm)) (s.reg rt))
    (memRead .load (alignedAddr (effAddr s rs imm)) .word s))

/-- R196. -/
def execSb (rt rs : Reg) (imm : BitVec 16) (s : State) : Host.Outcome State Fault Refusal :=
  .next (memWrite (effAddr s rs imm) .byte (s.reg rt) s)

/-- R197. -/
def execSh (rt rs : Reg) (imm : BitVec 16) (s : State) : Host.Outcome State Fault Refusal :=
  .next (memWrite (effAddr s rs imm) .half (s.reg rt) s)

/-- R202. -/
def execSw (rt rs : Reg) (imm : BitVec 16) (s : State) : Host.Outcome State Fault Refusal :=
  .next (memWrite (effAddr s rs imm) .word (s.reg rt) s)

/-- R200: one read of the aligned word, then one write of the merged word (D29). -/
def execSwl (rt rs : Reg) (imm : BitVec 16) (s : State) : Host.Outcome State Fault Refusal :=
  .next (finishMerge (alignedAddr (effAddr s rs imm)) (mergeSwl (lowBits (effAddr s rs imm)) (s.reg rt))
    (memRead .load (alignedAddr (effAddr s rs imm)) .word s))

/-- R201: as R200. -/
def execSwr (rt rs : Reg) (imm : BitVec 16) (s : State) : Host.Outcome State Fault Refusal :=
  .next (finishMerge (alignedAddr (effAddr s rs imm)) (mergeSwr (lowBits (effAddr s rs imm)) (s.reg rt))
    (memRead .load (alignedAddr (effAddr s rs imm)) .word s))

end Sys2Proof.Machine
end

