-- ==== Sys2Proof/Machine/Logic.lean ====
section
/-! DEFINITION. Logical, compare and load-upper-immediate instructions (44_logic_compare.md R150 to R161). -/

namespace Sys2Proof.Machine

/-- R150. -/
def execAnd (rd rs rt : Reg) (s : State) : Host.Outcome State Fault Refusal :=
  .next (s.setReg rd (s.reg rs &&& s.reg rt))

/-- R151. -/
def execOr (rd rs rt : Reg) (s : State) : Host.Outcome State Fault Refusal :=
  .next (s.setReg rd (s.reg rs ||| s.reg rt))

/-- R152. -/
def execXor (rd rs rt : Reg) (s : State) : Host.Outcome State Fault Refusal :=
  .next (s.setReg rd (s.reg rs ^^^ s.reg rt))

/-- R153. -/
def execNor (rd rs rt : Reg) (s : State) : Host.Outcome State Fault Refusal :=
  .next (s.setReg rd (~~~(s.reg rs ||| s.reg rt)))

/-- R154. -/
def execSlt (rd rs rt : Reg) (s : State) : Host.Outcome State Fault Refusal :=
  .next (s.setReg rd (boolWord (lessSigned (s.reg rs) (s.reg rt))))

/-- R155. -/
def execSltu (rd rs rt : Reg) (s : State) : Host.Outcome State Fault Refusal :=
  .next (s.setReg rd (boolWord (lessUnsigned (s.reg rs) (s.reg rt))))

/-- R156. -/
def execAndi (rt rs : Reg) (imm : BitVec 16) (s : State) : Host.Outcome State Fault Refusal :=
  .next (s.setReg rt (s.reg rs &&& zext16 imm))

/-- R157. -/
def execOri (rt rs : Reg) (imm : BitVec 16) (s : State) : Host.Outcome State Fault Refusal :=
  .next (s.setReg rt (s.reg rs ||| zext16 imm))

/-- R158. -/
def execXori (rt rs : Reg) (imm : BitVec 16) (s : State) : Host.Outcome State Fault Refusal :=
  .next (s.setReg rt (s.reg rs ^^^ zext16 imm))

/-- R159. -/
def execSlti (rt rs : Reg) (imm : BitVec 16) (s : State) : Host.Outcome State Fault Refusal :=
  .next (s.setReg rt (boolWord (lessSigned (s.reg rs) (sext16 imm))))

/-- R160: the immediate is sign-extended, then compared unsigned (C4). -/
def execSltiu (rt rs : Reg) (imm : BitVec 16) (s : State) : Host.Outcome State Fault Refusal :=
  .next (s.setReg rt (boolWord (lessUnsigned (s.reg rs) (sext16 imm))))

/-- R161. -/
def execLui (rt : Reg) (imm : BitVec 16) (s : State) : Host.Outcome State Fault Refusal :=
  .next (s.setReg rt (upperImm imm))

end Sys2Proof.Machine
end

