-- ==== Sys2Proof/Machine/MulDiv.lean ====
section
/-! DEFINITION. Multiply, divide and the moves from hi and lo (43_muldiv.md R140 to R145). No exception, ever. -/

namespace Sys2Proof.Machine

/-- `hi <- P[63:32]`, `lo <- P[31:0]` (R140, R141). -/
def writeProduct (p : BitVec 64) (s : State) : State := s.setHiLo (p.extractLsb' 32 32) (p.extractLsb' 0 32)

/-- What a division by zero leaves, whatever the dividend's sign (R142 corner cases 1 and 2, R143; C3, U8). -/
def divideByZero (dividend : Word) (s : State) : State := s.setHiLo dividend 0xFFFFFFFF

/-- R140: the exact product of the signed readings, in 64 bits. -/
def execMult (rs rt : Reg) (s : State) : Host.Outcome State Fault Refusal :=
  .next (writeProduct (BitVec.ofInt 64 ((s.reg rs).toInt * (s.reg rt).toInt)) s)

/-- R141: the exact product of the unsigned readings. -/
def execMultu (rs rt : Reg) (s : State) : Host.Outcome State Fault Refusal :=
  .next (writeProduct (BitVec.ofNat 64 ((s.reg rs).toNat * (s.reg rt).toNat)) s)

/-- R142: quotient truncated toward zero in lo, remainder in hi, each reduced modulo 2^32. -/
def execDiv (rs rt : Reg) (s : State) : Host.Outcome State Fault Refusal :=
  .next (
    if s.reg rt = 0 then divideByZero (s.reg rs) s
    else
      let n := (s.reg rs).toInt
      let d := (s.reg rt).toInt
      let q := n.tdiv d
      s.setHiLo (BitVec.ofInt 32 (n - q * d)) (BitVec.ofInt 32 q))

/-- R143. -/
def execDivu (rs rt : Reg) (s : State) : Host.Outcome State Fault Refusal :=
  .next (
    if s.reg rt = 0 then divideByZero (s.reg rs) s
    else
      s.setHiLo (BitVec.ofNat 32 ((s.reg rs).toNat % (s.reg rt).toNat))
        (BitVec.ofNat 32 ((s.reg rs).toNat / (s.reg rt).toNat)))

/-- R144. -/
def execMfhi (rd : Reg) (s : State) : Host.Outcome State Fault Refusal := .next (s.setReg rd s.hi)

/-- R145. -/
def execMflo (rd : Reg) (s : State) : Host.Outcome State Fault Refusal := .next (s.setReg rd s.lo)

end Sys2Proof.Machine
end

