-- ==== Sys2Proof/Machine/Shift.lean ====
section
/-! DEFINITION. The six shifts (41_shift.md R120 to R125). The amount is below 32 by its width; no flag, no exception. -/

namespace Sys2Proof.Machine

/-- R120: zeros enter at bit 0. -/
def execSll (rd rt : Reg) (sh : BitVec 5) (s : State) : Host.Outcome State Fault Refusal :=
  .next (s.setReg rd (s.reg rt <<< sh.toNat))

/-- R121: zeros enter at bit 31. -/
def execSrl (rd rt : Reg) (sh : BitVec 5) (s : State) : Host.Outcome State Fault Refusal :=
  .next (s.setReg rd (s.reg rt >>> sh.toNat))

/-- R122: copies of bit 31 enter at bit 31. -/
def execSra (rd rt : Reg) (sh : BitVec 5) (s : State) : Host.Outcome State Fault Refusal :=
  .next (s.setReg rd ((s.reg rt).sshiftRight sh.toNat))

/-- R123. -/
def execSllv (rd rt rs : Reg) (s : State) : Host.Outcome State Fault Refusal :=
  .next (s.setReg rd (s.reg rt <<< shiftAmount s rs))

/-- R124. -/
def execSrlv (rd rt rs : Reg) (s : State) : Host.Outcome State Fault Refusal :=
  .next (s.setReg rd (s.reg rt >>> shiftAmount s rs))

/-- R125. -/
def execSrav (rd rt rs : Reg) (s : State) : Host.Outcome State Fault Refusal :=
  .next (s.setReg rd ((s.reg rt).sshiftRight (shiftAmount s rs)))

end Sys2Proof.Machine
end

