-- ==== Sys2Proof/Machine/System.lean ====
section
/-! DEFINITION. Coprocessor-0 moves, rfe and syscall (48_cop0_system.md R210 to R213). No privilege check (R236). -/

namespace Sys2Proof.Machine

/-- R210: every index is valid. -/
def execMfc0 (rt rd : Reg) (s : State) : Host.Outcome State Fault Refusal :=
  .next (s.setReg rt (s.cp0Word rd))

/-- R211: all 32 bits, every index. -/
def execMtc0 (rt rd : Reg) (s : State) : Host.Outcome State Fault Refusal :=
  .next (s.setCp0Word rd (s.reg rt))

/-- R212. -/
def execRfe (s : State) : Host.Outcome State Fault Refusal := .next (restoreModes s)

/-- R213. -/
def execSyscall (s : State) : Host.Outcome State Fault Refusal := .next (raiseExc .sys s)

end Sys2Proof.Machine
end

