-- ==== Sys2Proof/Machine/Fetch.lean ====
section
/-! DEFINITION. The fetch and the advance of the step (40_cycle.md R110 to R112), the halt on an unimplemented encoding
(30_encoding.md R98), and where the next instruction's word stands. -/

namespace Sys2Proof.Machine

/-- What stage 1 of the step gave: the instruction word, or the state with which the step ends. -/
inductive Fetched where
  | word (w : Word) (s : State)
  | ended (s : State)
deriving DecidableEq, Repr

/-- Stage 1 (R110): a misaligned `pc` takes the exception with the registers as they stand before the advance and ends
the step (R111, D8, C8); an unmapped one sets the latch and ends it (R112). -/
def fetch (s : State) : Fetched :=
  if aligned s.pc .word then
    match memRead .fetch s.pc .word s with
    | .value w t => .word w t
    | .halted t => .ended t
  else .ended (raiseExc .adEL s)

/-- Stage 2 (R110; C1): the three program counters move on before anything executes. -/
def advance (s : State) : State := { s with currentPc := s.pc, pc := s.nextPc, nextPc := s.nextPc + 4 }

/-- R98 (D6): the advance has happened; the latch is set and nothing else changes. -/
def haltUnimplemented (w : Word) (s : State) : State := s.setHalted (.unimplementedOpcode w s.currentPc)

/-- Stage 3's operand: the word decoded, run by `run` when it is an instruction. -/
def executeWord (run : Instr → State → Host.Outcome State Fault Refusal) (w : Word) (s : State) :
    Host.Outcome State Fault Refusal :=
  match decode w with
  | .instr i => run i s
  | .unimplemented _ => .next (haltUnimplemented w s)

/-- The step from a running state: fetch, advance, execute (R110). -/
def fetchExecute (run : Instr → State → Host.Outcome State Fault Refusal) (s : State) :
    Host.Outcome State Fault Refusal :=
  match fetch s with
  | .word w t => executeWord run w (advance t)
  | .ended t => .next t

/-- The array `pc` fetches from, when it is aligned and in a window of one. -/
def fetchArray (s : State) : Option ArrayId :=
  if aligned s.pc .word then
    match classify s.params.regions s.pc with
    | some (.array a) => some a
    | _ => none
  else none

/-- A state with the word `w` stored where the next fetch reads. Where `pc` names no array (misaligned, unmapped or in a
device window), `pc` and the address map take their reset values first. -/
def placeWord (w : Word) (s : State) : State :=
  match fetchArray s with
  | some a => s.setArray a (writeLE (s.array a) (localIndex a s.pc) .word w)
  | none =>
    { s with
      pc := resetPc
      params := { s.params with regions := defaultRegions }
      rom := writeLE s.rom (localIndex .rom resetPc) .word w }

/-- See `placeWord`: the host's load of one instruction, also clearing the latch, which would let no step run. -/
def placeInstruction (w : Word) (s : State) : State := placeWord w { s with halt := .running }

end Sys2Proof.Machine
end

