-- ==== Sys2Proof/Machine/Step.lean ====
section
/-! DEFINITION. One step of the block (40_cycle.md R110): nothing once the halt latch is set (R36, R114), otherwise
`fetchExecute`. And where the host places an instruction. -/

namespace Sys2Proof.Machine

def step (s : State) : Host.Outcome State Fault Refusal :=
  match s.halt with
  | .running => fetchExecute exec s
  | .halted r => .fault (.latched r)

/-- The state with one instruction, its table bits `w`, where `step` fetches next; every bit above `nbits` is 0. -/
def State.withFetchWord (s : State) (nbits w : Nat) : State :=
  placeInstruction (BitVec.ofNat 32 (w % 2 ^ nbits)) s

end Sys2Proof.Machine
end

