-- ==== Sys2Proof/WellFormed.lean ====
section
/-! DEFINITION. Which instructions have every effect fixed by the spec. The fields' types already bound every operand
(a register number is below 32, an immediate has 16 bits), so the only checks left are the two encodings
93_implementation_defined.md lists as unspecified for software: U3 and U4. The decoder accepts them and the machine
runs them, with the open order taken from a free value (log 8, 9). -/

namespace Sys2Proof

/-- U3: a link branch whose tested register is the link register 31. -/
def Instr.testsItsLink : Instr → Bool
  | .bltzal rs _ => rs == 31
  | .bgezal rs _ => rs == 31
  | _ => false

/-- U4: a `jalr` whose target register is its link register, other than register 0. -/
def Instr.jumpsThroughItsLink : Instr → Bool
  | .jalr rd rs => rd == rs && rs != 0
  | _ => false

/-- Neither U3 nor U4: the spec fixes every effect of the instruction (45_branch.md R176, R177; 46_jump.md R183). -/
def Instr.wellFormed (i : Instr) : Bool :=
  !i.testsItsLink && !i.jumpsThroughItsLink

end Sys2Proof
end

