-- ==== Sys2Proof/Safety.lean ====
section
/-! DEFINITION. What counts as a safe run, and the invariant every step keeps. -/

namespace Sys2Proof.Machine

/-- The machine's invariant: the three arrays are in canonical form, the unused slot of register 0 holds 0, the
parameters are ones the spec admits, and `current_pc` is a multiple of 4 (40_cycle.md R111: it was fetched from). -/
structure State.Inv (s : State) : Prop where
  arrays : s.arraysWf = true
  zeroSlot : s.regs[0] = 0
  params : paramsWf s.params = true
  currentPcAligned : s.currentPc.toNat % 4 = 0

/-- The instruction the coming step will run, when it fetches one. -/
def State.nextInstr (s : State) : Option Instr :=
  match fetch s with
  | .word w _ =>
    match decode w with
    | .instr i => some i
    | .unimplemented _ => none
  | .ended _ => none

/-- A safe run of `k` steps (60_exceptions.md R242; 93 U1 to U4): the latch stays `Running` and no step runs an
instruction whose effect the spec leaves open. -/
def SafeRun : Nat → State → Prop
  | 0, s => s.halt = .running
  | k + 1, s =>
    s.halt = .running ∧ (∀ i, s.nextInstr = some i → i.wellFormed = true) ∧ ∃ t, step s = .next t ∧ SafeRun k t

end Sys2Proof.Machine
end

