-- ==== Sys2Proof/Certificates/Slice0/Obligations.lean ====
section
/-! DEFINITION. The statements for the provers. In every statement about `exec i s`, `s` is the state after the advance of
the step (40_cycle.md R113): `s.currentPc` is the address of the instruction, `s.pc` the address the next step fetches
from, `s.nextPc` is already `pc + 4`. The relations of the first part say what a state change is, component by
component, through the model's reads. -/

namespace Sys2Proof.Machine

/-! ## What a state change leaves alone -/

/-- Every general register reads as before. -/
def SameRegs (s t : State) : Prop := ∀ q, t.reg q = s.reg q

/-- Every coprocessor-0 word reads as before. -/
def SameCp0 (s t : State) : Prop := ∀ k, t.cp0Word k = s.cp0Word k

/-- Every byte of the three memory arrays reads as before. -/
def SameMemory (s t : State) : Prop := ∀ a i, t.cell a i = s.cell a i

/-- The three program counters are as before. -/
def SamePcs (s t : State) : Prop := t.pc = s.pc ∧ t.nextPc = s.nextPc ∧ t.currentPc = s.currentPc

/-- hi and lo are as before. -/
def SameHiLo (s t : State) : Prop := t.hi = s.hi ∧ t.lo = s.lo

/-- The halt latch and the parameters are as before, no call left the block and no free value was taken. -/
def SameOutside (s t : State) : Prop :=
  t.halt = s.halt ∧ t.params = s.params ∧ t.devCalls = s.devCalls ∧ t.draws = s.draws

/-- Nothing changed. -/
structure Unchanged (s t : State) : Prop where
  regs : SameRegs s t
  pcs : SamePcs s t
  hiLo : SameHiLo s t
  cp0 : SameCp0 s t
  memory : SameMemory s t
  outside : SameOutside s t

/-- General register `rd` takes `v` (nothing does when `rd` is 0), the bus calls `calls` left the block, `k` free values
were taken, and nothing else changed. -/
structure LoadsRegister (rd : Reg) (v : Word) (calls : List DevCall) (k : Nat) (s t : State) : Prop where
  regs : ∀ q, t.reg q = if q = rd ∧ rd ≠ 0 then v else s.reg q
  pcs : SamePcs s t
  hiLo : SameHiLo s t
  cp0 : SameCp0 s t
  memory : SameMemory s t
  halt : t.halt = s.halt
  params : t.params = s.params
  devCalls : t.devCalls = s.devCalls ++ calls
  draws : t.draws = s.draws + k

/-- General register `rd` takes `v` (nothing does when `rd` is 0) and nothing else changed. -/
def WritesRegister (rd : Reg) (v : Word) (s t : State) : Prop := LoadsRegister rd v [] 0 s t

/-- hi and lo take the two values and nothing else changed. -/
structure WritesHiLo (h l : Word) (s t : State) : Prop where
  hi : t.hi = h
  lo : t.lo = l
  regs : SameRegs s t
  pcs : SamePcs s t
  cp0 : SameCp0 s t
  memory : SameMemory s t
  outside : SameOutside s t

/-- `next_pc` takes `target`, register `rd` takes `link` (nothing does when `rd` is 0), `k` free values were taken, and
nothing else changed: `pc`, the delay slot, is as before. -/
structure Transfers (target : Word) (rd : Reg) (link : Word) (k : Nat) (s t : State) : Prop where
  nextPc : t.nextPc = target
  pc : t.pc = s.pc
  currentPc : t.currentPc = s.currentPc
  regs : ∀ q, t.reg q = if q = rd ∧ rd ≠ 0 then link else s.reg q
  hiLo : SameHiLo s t
  cp0 : SameCp0 s t
  memory : SameMemory s t
  halt : t.halt = s.halt
  params : t.params = s.params
  devCalls : t.devCalls = s.devCalls
  draws : t.draws = s.draws + k

/-- The exception entry of 60_exceptions.md R224 with cause code `code`, but for the general registers, of which it
says nothing: the mode stack moves up one pair bit by bit (R227), cause is written whole, epc by the delay-slot
heuristic, `pc` and `next_pc` go to one of the two fixed handlers. -/
structure EntersException (code : Nat) (s t : State) : Prop where
  pc : t.pc = if s.sr.getLsbD 22 then 0xBFC00180 else 0x80000080
  nextPc : t.nextPc = t.pc + 4
  sr : ∀ k, k < 32 →
    t.sr.getLsbD k = if 6 ≤ k then s.sr.getLsbD k else if 2 ≤ k then s.sr.getLsbD (k - 2) else false
  cause : t.cause = BitVec.ofNat 32 (4 * code)
  epc : t.epc = if s.pc = s.currentPc + 4 then s.currentPc else s.currentPc - 4
  cp0 : ∀ k, k ≠ 12 → k ≠ 13 → k ≠ 14 → t.cp0Word k = s.cp0Word k
  currentPc : t.currentPc = s.currentPc
  hiLo : SameHiLo s t
  memory : SameMemory s t
  outside : SameOutside s t

/-- The `n` bytes from index `i` of array `a` take the bytes `b 0`, `b 1`, ... and nothing else changed. -/
structure StoresBytes (a : ArrayId) (i n : Nat) (b : Nat → Byte) (s t : State) : Prop where
  cells : ∀ c j, t.cell c j = if c = a ∧ i ≤ j ∧ j < i + n then b (j - i) else s.cell c j
  regs : SameRegs s t
  pcs : SamePcs s t
  hiLo : SameHiLo s t
  cp0 : SameCp0 s t
  outside : SameOutside s t

/-- The latch is set for the reason `r` and nothing else changed. -/
structure Halts (r : HaltReason) (s t : State) : Prop where
  halt : t.halt = .halted r
  regs : SameRegs s t
  pcs : SamePcs s t
  hiLo : SameHiLo s t
  cp0 : SameCp0 s t
  memory : SameMemory s t
  outside : t.params = s.params ∧ t.devCalls = s.devCalls ∧ t.draws = s.draws

/-! ## Where an access goes -/

/-- An aligned access of width `n` at `addr` is routed to array `a` (20_memory.md R52). -/
def Reaches (s : State) (addr : Word) (n : Width) (a : ArrayId) : Prop :=
  aligned addr n = true ∧ classify s.params.regions addr = some (.array a)

/-- A store routed to array `a` takes effect: the scratchpad always, RAM unless the cache is isolated (R53, R64). -/
def TakesStores (s : State) (a : ArrayId) : Prop := a = .scratch ∨ (a = .ram ∧ s.cacheIsolated = false)

/-- The first bus access of a load or store: its address, its width, its kind (20_memory.md R66). -/
def accessOf (s : State) : Instr → Option (Word × Width × AccessKind)
  | .lb _ rs imm => some (effAddr s rs imm, .byte, .load)
  | .lbu _ rs imm => some (effAddr s rs imm, .byte, .load)
  | .lh _ rs imm => some (effAddr s rs imm, .half, .load)
  | .lhu _ rs imm => some (effAddr s rs imm, .half, .load)
  | .lw _ rs imm => some (effAddr s rs imm, .word, .load)
  | .lwl _ rs imm => some (alignedAddr (effAddr s rs imm), .word, .load)
  | .lwr _ rs imm => some (alignedAddr (effAddr s rs imm), .word, .load)
  | .swl _ rs imm => some (alignedAddr (effAddr s rs imm), .word, .load)
  | .swr _ rs imm => some (alignedAddr (effAddr s rs imm), .word, .load)
  | .sb _ rs imm => some (effAddr s rs imm, .byte, .store)
  | .sh _ rs imm => some (effAddr s rs imm, .half, .store)
  | .sw _ rs imm => some (effAddr s rs imm, .word, .store)
  | _ => none

/-- What the parameter DEV answers to a load of width `n` (20_memory.md R62), and how many free values that takes: the
stub 0 and none, the oracle any value of that width and one. -/
def DevAnswers (s : State) (d : Dev) (n : Width) (addr : Word) (a : Word) (k : Nat) : Prop :=
  (s.params.dev = .stub ∧ a = 0 ∧ k = 0) ∨
    (s.params.dev = .oracle ∧ a.toNat = (Config.devLoad s.draws d n addr).toNat % 2 ^ (8 * widthBytes n) ∧ k = 1)

/-- The instructions with a raising condition (60_exceptions.md R220). -/
def mayRaise : Instr → Bool
  | .add .. | .addi .. | .syscall | .lh .. | .lhu .. | .lw .. | .sh .. | .sw .. => true
  | _ => false

/-- Branches and jumps (45_branch.md, 46_jump.md). -/
def isTransfer : Instr → Bool
  | .beq .. | .bne .. | .blez .. | .bgtz .. | .bltz .. | .bgez .. | .bltzal .. | .bgezal .. => true
  | .j .. | .jal .. | .jr .. | .jalr .. => true
  | _ => false

/-- The signed sum does not fit 32 bits, by the two comparisons of 42_arith.md R130. -/
def SumOverflows (x y : Word) : Prop :=
  (0 ≤ x.toInt ∧ y.toInt > (2 ^ 31 - 1) - x.toInt) ∨ (x.toInt < 0 ∧ y.toInt < -(2 ^ 31) - x.toInt)

/-- The branch target of 45_branch.md R178 as a number: `pc + sext(imm) * 4` modulo 2^32. -/
def IsBranchTarget (s : State) (imm : BitVec 16) (target : Word) : Prop :=
  (target.toNat : Int) = ((s.pc.toNat : Int) + 4 * imm.toInt) % 2 ^ 32

/-- What a branch does to `next_pc` (R178): the target when the condition holds, `pc + 4` kept when it does not. -/
def Branches (cond : Prop) (imm : BitVec 16) (rd : Reg) (link : Word) (k : Nat) (s t : State) : Prop :=
  ∃ target, IsBranchTarget s imm target ∧ (cond → Transfers target rd link k s t) ∧
    (¬ cond → Transfers s.nextPc rd link k s t)

end Sys2Proof.Machine

open Sys2Proof Sys2Proof.Machine

/-! ## Reset and boot -/

/-- R250: both the state the machine starts in and any state in which the host asserts reset have the values the reset
sentence names; asserting reset makes no memory access. -/
def Obligations.ResetSetsNamedRegisters : Prop :=
  (State.reset.pc = 0xBFC00000 ∧ State.reset.nextPc = 0xBFC00004 ∧ State.reset.sr = 0 ∧ State.reset.reg 0 = 0) ∧
  ∀ s : State,
    s.assertReset.pc = 0xBFC00000 ∧ s.assertReset.nextPc = 0xBFC00004 ∧ s.assertReset.sr = 0 ∧
      s.assertReset.reg 0 = 0 ∧ SameMemory s s.assertReset ∧ s.assertReset.devCalls = s.devCalls

/-- The spec's decision D25 (70_reset_and_hazards.md, on a second reset): reset sets the latch to Running, and a second
reset keeps the value of everything the reset sentence does not name. -/
def Obligations.SecondResetKeepsTheRest : Prop :=
  State.reset.halt = .running ∧
  ∀ s : State,
    s.assertReset.halt = .running ∧ SameRegs s s.assertReset ∧ SameHiLo s s.assertReset ∧
      s.assertReset.currentPc = s.currentPc ∧ (∀ k, k ≠ 12 → s.assertReset.cp0Word k = s.cp0Word k) ∧
      SameMemory s s.assertReset ∧ s.assertReset.params = s.params

/-- The first step after reset (derived in the spec from the step and the ROM backend): once the host has supplied an
image of exactly 0x80000 bytes, byte `k` of it is ROM byte `k`, and the first step runs the word its first four bytes
make, little-endian, with the program counters of 70_reset_and_hazards.md. An image of any other length is refused. -/
def Obligations.FirstStepRunsBiosWord : Prop :=
  ∀ image : List Byte,
    (image.length ≠ 0x80000 → State.reset.loadBios image = none) ∧
    ∀ (h : image.length = 0x80000) (i : Instr),
      decode (wordOfBytes image[0] image[1] image[2] image[3]) = .instr i →
      ∃ s, State.reset.loadBios image = some s ∧ (∀ k (hk : k < image.length), s.cell .rom k = image[k]) ∧
        step s = exec i { s with currentPc := 0xBFC00000, pc := 0xBFC00004, nextPc := 0xBFC00008 }

/-! ## Encoding -/

/-- Every instruction, with every operand at every value, is read back from its word. -/
def Obligations.EncodeThenDecode : Prop :=
  ∀ i : Instr, decode (encode i) = .instr i

/-- R96: a word is the instruction of a row exactly when `w & mask = match`. -/
def Obligations.DecodeAgreesWithOpcodeTable : Prop :=
  ∀ w : Word, ∀ r ∈ opcodeTable,
    (w &&& r.mask = r.pattern ↔ ∃ i, decode w = .instr i ∧ i.mnemonic = r.mnemonic)

/-- R96: the table has 57 rows and no word is the instruction of two of them. -/
def Obligations.OpcodeRowsExclusive : Prop :=
  opcodeTable.length = 57 ∧
  ∀ w : Word, ∀ r ∈ opcodeTable, ∀ q ∈ opcodeTable,
    w &&& r.mask = r.pattern → w &&& q.mask = q.pattern → r = q

/-- The spec's decision D26: the decoder looks at the dispatch keys and the operand fields of the row alone, so
re-encoding what it read gives the word with every other bit cleared. -/
def Obligations.DecodeIgnoresUnusedBits : Prop :=
  ∀ (w : Word) (i : Instr), decode w = .instr i → encode i = w &&& (i.row.mask ||| i.row.operands)

/-- A few words of the spec's examples, one per family, decode to the instructions they stand for. -/
def Obligations.SampleWordsDecode : Prop :=
  decode 0x00031100 = .instr (.sll 2 3 4) ∧ decode 0x00831007 = .instr (.srav 2 3 4) ∧
  decode 0x00851020 = .instr (.add 2 4 5) ∧ decode 0x2482FFFF = .instr (.addiu 2 4 0xFFFF) ∧
  decode 0x0085001A = .instr (.div 4 5) ∧ decode 0x3C021234 = .instr (.lui 2 0x1234) ∧
  decode 0x04910003 = .instr (.bgezal 4 3) ∧ decode 0x0080F809 = .instr (.jalr 31 4) ∧
  decode 0x8C820004 = .instr (.lw 2 4 4) ∧ decode 0xB8820001 = .instr (.swr 2 4 1) ∧
  decode 0x40826000 = .instr (.mtc0 2 12) ∧ decode 0x421FFFD0 = .instr .rfe ∧
  decode 0x00851022 = .unimplemented (.special 0x22)

/-! ## The step -/

/-- A running machine runs the instruction at `pc`: where the four bytes of an array at `pc` decode to `i`, the step is
`exec i` of the state with the three program counters advanced; in a device window the word is what the device
answers (the stub 0, which is `sll $0, $0, 0`; the oracle any word, log 4), and the call is on record. -/
def Obligations.StepRunsDecodedInstruction : Prop :=
  (∀ (s : State) (a : ArrayId) (i : Instr) (rest : List Byte),
    s.halt = .running → Reaches s s.pc .word a →
    decodeBytes [s.cell a (localIndex a s.pc), s.cell a (localIndex a s.pc + 1), s.cell a (localIndex a s.pc + 2),
      s.cell a (localIndex a s.pc + 3)] = (.instr i, rest) →
    step s = exec i { s with currentPc := s.pc, pc := s.nextPc, nextPc := s.nextPc + 4 }) ∧
  (∀ (s : State) (d : Dev),
    s.halt = .running → aligned s.pc .word = true → classify s.params.regions s.pc = some (.dev d) →
    s.params.dev = .stub →
    step s = exec (.sll 0 0 0)
      { s with currentPc := s.pc, pc := s.nextPc, nextPc := s.nextPc + 4,
               devCalls := s.devCalls ++ [.load d .word s.pc] }) ∧
  (∀ (s u : State) (d : Dev) (w : Word),
    s.halt = .running → aligned s.pc .word = true → classify s.params.regions s.pc = some (.dev d) →
    s.params.dev = .oracle → w = Config.devLoad s.draws d .word s.pc →
    u = { s with currentPc := s.pc, pc := s.nextPc, nextPc := s.nextPc + 4,
                 devCalls := s.devCalls ++ [.load d .word s.pc], draws := s.draws + 1 } →
    (∀ i, decode w = .instr i → step s = exec i u) ∧
    (∀ why, decode w = .unimplemented why → step s = .next { u with halt := .halted (.unimplementedOpcode w s.pc) }))

/-- The spec's decision D8: a misaligned `pc` takes the address error with the program counters as they stand before
the advance, executes nothing, and (`current_pc` being a multiple of 4) records `current_pc - 4`. -/
def Obligations.MisalignedFetchTraps : Prop :=
  ∀ s : State, s.halt = .running → s.pc.toNat % 4 ≠ 0 →
    ∃ t, step s = .next t ∧ EntersException 4 s t ∧ SameRegs s t ∧
      (s.currentPc.toNat % 4 = 0 → t.epc = s.currentPc - 4)

/-- The spec's decision D7 at the fetch: an aligned `pc` in no region sets the latch and changes nothing else. -/
def Obligations.UnmappedFetchHalts : Prop :=
  ∀ s : State, s.halt = .running → s.pc.toNat % 4 = 0 → classify s.params.regions s.pc = none →
    ∃ t, step s = .next t ∧ Halts (.unmappedAddress s.pc .fetch) s t

/-- The spec's decision D6: a fetched word that is no instruction sets the latch with the word and its address; the
advance has happened, and nothing else changes. -/
def Obligations.UnimplementedEncodingHalts : Prop :=
  ∀ (s u : State) (w : Word) (why : Reject),
    s.halt = .running → fetch s = .word w u → decode w = .unimplemented why →
    ∃ t, step s = .next t ∧ t.halt = .halted (.unimplementedOpcode w s.pc) ∧ t.currentPc = s.pc ∧ t.pc = s.nextPc ∧
      t.nextPc = s.nextPc + 4 ∧ SameRegs s t ∧ SameHiLo s t ∧ SameCp0 s t ∧ SameMemory s t ∧ t.params = s.params

/-- The machine has no stopping instruction: a step exists exactly while the latch is Running, whatever the
instruction, and no instruction is refused. -/
def Obligations.StepExistsExactlyWhileRunning : Prop :=
  ∀ s : State,
    ((∃ t, step s = .next t) ↔ s.halt = .running) ∧ (∀ r, step s ≠ .refused r) ∧
      (∀ r, s.halt = .halted r → step s = .fault (.latched r))

/-- R12: a transfer of control writes `next_pc` and never `pc`, so the delay slot always executes; the exception entry
writes both; nothing else moves the program counters. -/
def Obligations.OnlyTransfersAndExceptionsRedirect : Prop :=
  ∀ (i : Instr) (s t : State), exec i s = .next t →
    t.currentPc = s.currentPc ∧
    ((t.pc = s.pc ∧ (isTransfer i = false → t.nextPc = s.nextPc)) ∨
      (mayRaise i = true ∧ t.pc = (if s.sr.getLsbD 22 then 0xBFC00180 else 0x80000080) ∧ t.nextPc = t.pc + 4))

/-! ## What every step keeps -/

/-- Every step keeps the machine's invariant. -/
def Obligations.StepKeepsInvariant : Prop :=
  ∀ s t : State, s.Inv → step s = .next t → t.Inv

/-- The state after reset meets the invariant (its parameters are the spec's defaults, whose rows are disjoint). -/
def Obligations.ResetMeetsInvariant : Prop := State.reset.Inv

/-- No step changes ROM or the parameters (that a store to ROM is ignored is the spec's decision D18). -/
def Obligations.RomAndParametersNeverChange : Prop :=
  ∀ s t : State, step s = .next t → (∀ k, t.cell .rom k = s.cell .rom k) ∧ t.params = s.params

/-- The 29 words of the coprocessor-0 bank that are neither sr, cause nor epc change only by an `mtc0` that names
them. -/
def Obligations.Cp0StorageWordsOnlyByMtc0 : Prop :=
  ∀ (s t : State) (k : Reg), step s = .next t → k ≠ 12 → k ≠ 13 → k ≠ 14 → t.cp0Word k ≠ s.cp0Word k →
    ∃ rt, s.nextInstr = some (.mtc0 rt k) ∧ t.cp0Word k = s.reg rt

/-- hi and lo change only by the four multiply and divide instructions. -/
def Obligations.HiLoOnlyByMultiplyAndDivide : Prop :=
  ∀ s t : State, step s = .next t → ¬ SameHiLo s t →
    ∃ rs rt, s.nextInstr = some (.mult rs rt) ∨ s.nextInstr = some (.multu rs rt) ∨
      s.nextInstr = some (.div rs rt) ∨ s.nextInstr = some (.divu rs rt)

/-- A halt and an exception never happen in the same step: a step that sets the latch leaves every register, hi and lo,
the coprocessor-0 bank and memory as they were. -/
def Obligations.HaltingStepChangesNothingElse : Prop :=
  ∀ s t : State, step s = .next t → t.halt ≠ .running →
    SameRegs s t ∧ SameHiLo s t ∧ SameCp0 s t ∧ SameMemory s t

/-! ## Exceptions -/

/-- R224: the five effects of the exception entry, for each of the four causes, and that nothing else changes. -/
def Obligations.ExceptionEntryEffects : Prop :=
  ∀ s : State,
    (EntersException 4 s (raiseExc .adEL s) ∧ SameRegs s (raiseExc .adEL s)) ∧
    (EntersException 5 s (raiseExc .adES s) ∧ SameRegs s (raiseExc .adES s)) ∧
    (EntersException 8 s (raiseExc .sys s) ∧ SameRegs s (raiseExc .sys s)) ∧
    (EntersException 12 s (raiseExc .ov s) ∧ SameRegs s (raiseExc .ov s))

/-- An entry followed by `rfe` gives back the current and previous pairs and leaves the old pair 0. -/
def Obligations.EntryThenRfeRestoresModes : Prop :=
  ∀ (c : ExcCode) (s : State),
    ∃ t, exec .rfe (raiseExc c s) = .next t ∧
      ∀ k, k < 32 → t.sr.getLsbD k = if k = 4 ∨ k = 5 then false else s.sr.getLsbD k

/-- A `jr` outside a delay slot, followed by an `add` that overflows: epc is the address of the `jr`, unless the target
is the address after the slot. -/
def Obligations.OverflowInJrSlotRecordsJump : Prop :=
  ∀ (s t : State) (rs rd ra rb : Reg),
    s.halt = .running → s.nextPc = s.pc + 4 → s.nextInstr = some (.jr rs) → s.reg rs ≠ s.pc + 8 → step s = .next t →
    t.nextInstr = some (.add rd ra rb) → SumOverflows (t.reg ra) (t.reg rb) →
    ∃ u, step t = .next u ∧ u.epc = s.pc ∧ u.cause = 0x30 ∧ SameRegs t u ∧ u.nextPc = u.pc + 4 ∧
      u.pc = if t.sr.getLsbD 22 then 0xBFC00180 else 0x80000080

/-- Only the instructions of the exception table raise: every other one, but `mtc0` and `rfe`, leaves the coprocessor-0
bank as it was. -/
def Obligations.OnlyListedInstructionsRaise : Prop :=
  ∀ (i : Instr) (s t : State), exec i s = .next t → mayRaise i = false → (∀ rt rd, i ≠ .mtc0 rt rd) → i ≠ .rfe →
    SameCp0 s t

/-! ## Shifts -/

/-- R120, R121, R122. -/
def Obligations.ShiftsByConstant : Prop :=
  ∀ (rd rt : Reg) (sh : BitVec 5) (s : State),
    (∃ t v, exec (.sll rd rt sh) s = .next t ∧ WritesRegister rd v s t ∧
      v.toNat = (s.reg rt).toNat * 2 ^ sh.toNat % 2 ^ 32) ∧
    (∃ t v, exec (.srl rd rt sh) s = .next t ∧ WritesRegister rd v s t ∧
      v.toNat = (s.reg rt).toNat / 2 ^ sh.toNat) ∧
    (∃ t v, exec (.sra rd rt sh) s = .next t ∧ WritesRegister rd v s t ∧
      v.toInt = (s.reg rt).toInt / 2 ^ sh.toNat)

/-- R123, R124, R125: the amount is the low five bits of `x[rs]`. -/
def Obligations.ShiftsByRegister : Prop :=
  ∀ (rd rt rs : Reg) (s : State),
    (∃ t v, exec (.sllv rd rt rs) s = .next t ∧ WritesRegister rd v s t ∧
      v.toNat = (s.reg rt).toNat * 2 ^ ((s.reg rs).toNat % 32) % 2 ^ 32) ∧
    (∃ t v, exec (.srlv rd rt rs) s = .next t ∧ WritesRegister rd v s t ∧
      v.toNat = (s.reg rt).toNat / 2 ^ ((s.reg rs).toNat % 32)) ∧
    (∃ t v, exec (.srav rd rt rs) s = .next t ∧ WritesRegister rd v s t ∧
      v.toInt = (s.reg rt).toInt / 2 ^ ((s.reg rs).toNat % 32))

/-! ## Arithmetic -/

/-- R131, R132: never a trap, the result modulo 2^32. -/
def Obligations.NonTrappingAddSub : Prop :=
  ∀ (rd rs rt : Reg) (s : State),
    (∃ t v, exec (.addu rd rs rt) s = .next t ∧ WritesRegister rd v s t ∧
      v.toNat = ((s.reg rs).toNat + (s.reg rt).toNat) % 2 ^ 32) ∧
    (∃ t v, exec (.subu rd rs rt) s = .next t ∧ WritesRegister rd v s t ∧
      (v.toNat : Int) = ((s.reg rs).toNat - (s.reg rt).toNat : Int) % 2 ^ 32)

/-- `addiu` never traps and, by the spec's decision D15, its immediate is sign-extended: the result modulo 2^32. -/
def Obligations.AddImmediateWraps : Prop :=
  ∀ (rt rs : Reg) (imm : BitVec 16) (s : State),
    ∃ t v, exec (.addiu rt rs imm) s = .next t ∧ WritesRegister rt v s t ∧
      (v.toNat : Int) = ((s.reg rs).toNat + imm.toInt : Int) % 2 ^ 32

/-- R130, R133: the exact sum is written when it fits; otherwise the write is skipped and code 12 is raised. -/
def Obligations.SignedAddsSumOrTrap : Prop :=
  (∀ (rd rs rt : Reg) (s : State),
    (¬ SumOverflows (s.reg rs) (s.reg rt) →
      ∃ t v, exec (.add rd rs rt) s = .next t ∧ WritesRegister rd v s t ∧
        v.toInt = (s.reg rs).toInt + (s.reg rt).toInt) ∧
    (SumOverflows (s.reg rs) (s.reg rt) →
      ∃ t, exec (.add rd rs rt) s = .next t ∧ EntersException 12 s t ∧ SameRegs s t)) ∧
  (∀ (rt rs : Reg) (imm : BitVec 16) (s : State),
    (¬ SumOverflows (s.reg rs) (imm.signExtend 32) →
      ∃ t v, exec (.addi rt rs imm) s = .next t ∧ WritesRegister rt v s t ∧
        v.toInt = (s.reg rs).toInt + imm.toInt) ∧
    (SumOverflows (s.reg rs) (imm.signExtend 32) →
      ∃ t, exec (.addi rt rs imm) s = .next t ∧ EntersException 12 s t ∧ SameRegs s t))

/-- R140, R141: the 64 bits hi and lo together are the exact product. -/
def Obligations.MultiplyProducts : Prop :=
  ∀ (rs rt : Reg) (s : State),
    (∃ t h l, exec (.mult rs rt) s = .next t ∧ WritesHiLo h l s t ∧
      (h ++ l).toInt = (s.reg rs).toInt * (s.reg rt).toInt) ∧
    (∃ t h l, exec (.multu rs rt) s = .next t ∧ WritesHiLo h l s t ∧
      (h ++ l).toNat = (s.reg rs).toNat * (s.reg rt).toNat)

/-- R142: by zero, hi is the dividend and lo is 0xFFFFFFFF whatever the sign; otherwise lo and hi are, modulo 2^32, the
quotient and the remainder of the division rounded toward zero. -/
def Obligations.SignedDivision : Prop :=
  ∀ (rs rt : Reg) (s : State),
    (s.reg rt = 0 → ∃ t, exec (.div rs rt) s = .next t ∧ WritesHiLo (s.reg rs) 0xFFFFFFFF s t) ∧
    (s.reg rt ≠ 0 →
      ∃ (t : State) (q r : Int), exec (.div rs rt) s = .next t ∧
        WritesHiLo (BitVec.ofInt 32 r) (BitVec.ofInt 32 q) s t ∧
        (s.reg rs).toInt = q * (s.reg rt).toInt + r ∧ r.natAbs < (s.reg rt).toInt.natAbs ∧
        (r = 0 ∨ (0 < r ∧ 0 < (s.reg rs).toInt) ∨ (r < 0 ∧ (s.reg rs).toInt < 0)))

/-- R143. -/
def Obligations.UnsignedDivision : Prop :=
  ∀ (rs rt : Reg) (s : State),
    (s.reg rt = 0 → ∃ t, exec (.divu rs rt) s = .next t ∧ WritesHiLo (s.reg rs) 0xFFFFFFFF s t) ∧
    (s.reg rt ≠ 0 →
      ∃ t h l, exec (.divu rs rt) s = .next t ∧ WritesHiLo h l s t ∧
        l.toNat * (s.reg rt).toNat + h.toNat = (s.reg rs).toNat ∧ h.toNat < (s.reg rt).toNat)

/-- R144, R145. -/
def Obligations.MovesFromHiLo : Prop :=
  ∀ (rd : Reg) (s : State),
    (∃ t, exec (.mfhi rd) s = .next t ∧ WritesRegister rd s.hi s t) ∧
    (∃ t, exec (.mflo rd) s = .next t ∧ WritesRegister rd s.lo s t)

/-! ## Logic and compares -/

/-- R150, R151, R152, R153, bit by bit. -/
def Obligations.BitwiseRegisterOps : Prop :=
  ∀ (rd rs rt : Reg) (s : State),
    (∃ t v, exec (.and rd rs rt) s = .next t ∧ WritesRegister rd v s t ∧
      ∀ k, k < 32 → v.getLsbD k = ((s.reg rs).getLsbD k && (s.reg rt).getLsbD k)) ∧
    (∃ t v, exec (.or rd rs rt) s = .next t ∧ WritesRegister rd v s t ∧
      ∀ k, k < 32 → v.getLsbD k = ((s.reg rs).getLsbD k || (s.reg rt).getLsbD k)) ∧
    (∃ t v, exec (.xor rd rs rt) s = .next t ∧ WritesRegister rd v s t ∧
      ∀ k, k < 32 → v.getLsbD k = ((s.reg rs).getLsbD k != (s.reg rt).getLsbD k)) ∧
    (∃ t v, exec (.nor rd rs rt) s = .next t ∧ WritesRegister rd v s t ∧
      ∀ k, k < 32 → v.getLsbD k = !((s.reg rs).getLsbD k || (s.reg rt).getLsbD k))

/-- R156, R157, R158, R161: the logical immediates are zero-extended; `lui` puts its immediate in the upper half. -/
def Obligations.BitwiseImmediateOps : Prop :=
  ∀ (rt rs : Reg) (imm : BitVec 16) (s : State),
    (∃ t v, exec (.andi rt rs imm) s = .next t ∧ WritesRegister rt v s t ∧
      ∀ k, k < 32 → v.getLsbD k = ((s.reg rs).getLsbD k && imm.getLsbD k)) ∧
    (∃ t v, exec (.ori rt rs imm) s = .next t ∧ WritesRegister rt v s t ∧
      ∀ k, k < 32 → v.getLsbD k = ((s.reg rs).getLsbD k || imm.getLsbD k)) ∧
    (∃ t v, exec (.xori rt rs imm) s = .next t ∧ WritesRegister rt v s t ∧
      ∀ k, k < 32 → v.getLsbD k = ((s.reg rs).getLsbD k != imm.getLsbD k)) ∧
    (∃ t v, exec (.lui rt imm) s = .next t ∧ WritesRegister rt v s t ∧ v.toNat = imm.toNat * 2 ^ 16)

/-- R154, R155, R159, R160: the immediate of `sltiu` is sign-extended, then compared unsigned. -/
def Obligations.ComparesWriteZeroOrOne : Prop :=
  (∀ (rd rs rt : Reg) (s : State),
    (∃ t, exec (.slt rd rs rt) s = .next t ∧
      WritesRegister rd (if (s.reg rs).toInt < (s.reg rt).toInt then 1 else 0) s t) ∧
    (∃ t, exec (.sltu rd rs rt) s = .next t ∧
      WritesRegister rd (if (s.reg rs).toNat < (s.reg rt).toNat then 1 else 0) s t)) ∧
  (∀ (rt rs : Reg) (imm : BitVec 16) (s : State),
    (∃ t, exec (.slti rt rs imm) s = .next t ∧
      WritesRegister rt (if (s.reg rs).toInt < imm.toInt then 1 else 0) s t) ∧
    (∃ t, exec (.sltiu rt rs imm) s = .next t ∧
      WritesRegister rt (if ((s.reg rs).toNat : Int) < imm.toInt % 2 ^ 32 then 1 else 0) s t))

/-! ## Branches and jumps -/

/-- R170, R171. -/
def Obligations.EqualityBranches : Prop :=
  ∀ (rs rt : Reg) (imm : BitVec 16) (s : State),
    (∃ t, exec (.beq rs rt imm) s = .next t ∧ Branches (s.reg rs = s.reg rt) imm 0 0 0 s t) ∧
    (∃ t, exec (.bne rs rt imm) s = .next t ∧ Branches (s.reg rs ≠ s.reg rt) imm 0 0 0 s t)

/-- R172, R173, R174, R175. -/
def Obligations.SignBranches : Prop :=
  ∀ (rs : Reg) (imm : BitVec 16) (s : State),
    (∃ t, exec (.blez rs imm) s = .next t ∧ Branches ((s.reg rs).toInt ≤ 0) imm 0 0 0 s t) ∧
    (∃ t, exec (.bgtz rs imm) s = .next t ∧ Branches (0 < (s.reg rs).toInt) imm 0 0 0 s t) ∧
    (∃ t, exec (.bltz rs imm) s = .next t ∧ Branches ((s.reg rs).toInt < 0) imm 0 0 0 s t) ∧
    (∃ t, exec (.bgez rs imm) s = .next t ∧ Branches (0 ≤ (s.reg rs).toInt) imm 0 0 0 s t)

/-- R176, R177, for every register but the link register itself: register 31 takes `pc + 4`, taken or not. -/
def Obligations.LinkBranches : Prop :=
  ∀ (rs : Reg) (imm : BitVec 16) (s : State), rs ≠ 31 →
    (∃ t, exec (.bltzal rs imm) s = .next t ∧ Branches ((s.reg rs).toInt < 0) imm 31 (s.pc + 4) 0 s t) ∧
    (∃ t, exec (.bgezal rs imm) s = .next t ∧ Branches (0 ≤ (s.reg rs).toInt) imm 31 (s.pc + 4) 0 s t)

/-- The form the spec leaves unspecified (log 8; 93_implementation_defined.md U3), `rs = 31`: the link is written all
the same, and the condition is that of the old register 31 or of the link value; one free value is taken. -/
def Obligations.LinkBranchesOnLinkRegister : Prop :=
  ∀ (imm : BitVec 16) (s : State),
    (∃ t tested, (tested = s.reg 31 ∨ tested = s.pc + 4) ∧ exec (.bltzal 31 imm) s = .next t ∧
      Branches (tested.toInt < 0) imm 31 (s.pc + 4) 1 s t) ∧
    (∃ t tested, (tested = s.reg 31 ∨ tested = s.pc + 4) ∧ exec (.bgezal 31 imm) s = .next t ∧
      Branches (0 ≤ tested.toInt) imm 31 (s.pc + 4) 1 s t)

/-- R180, R181, R182: the upper four bits of the target of `j` and `jal` come from `pc`; `jal` links register 31 to
`pc + 4`; `jr` takes the whole register, unmasked and unchecked. -/
def Obligations.JumpsWriteNextPc : Prop :=
  ∀ (target : BitVec 26) (rs : Reg) (s : State),
    (∃ t a, exec (.j target) s = .next t ∧ Transfers a 0 0 0 s t ∧
      a.toNat = s.pc.toNat / 2 ^ 28 * 2 ^ 28 + target.toNat * 4) ∧
    (∃ t a, exec (.jal target) s = .next t ∧ Transfers a 31 (s.pc + 4) 0 s t ∧
      a.toNat = s.pc.toNat / 2 ^ 28 * 2 ^ 28 + target.toNat * 4) ∧
    (∃ t, exec (.jr rs) s = .next t ∧ Transfers (s.reg rs) 0 0 0 s t)

/-- `jalr` in every form but `rd = rs`, not 0: by the spec's decision D13 it links register `rd`, none when `rd` is 0,
to `pc + 4`; the whole register `rs` is the target. -/
def Obligations.JalrLinksAndJumps : Prop :=
  ∀ (rd rs : Reg) (s : State), (rd ≠ rs ∨ rs = 0) →
    ∃ t, exec (.jalr rd rs) s = .next t ∧ Transfers (s.reg rs) rd (s.pc + 4) 0 s t

/-- The form the spec leaves unspecified (log 9; 93_implementation_defined.md U4), `rd = rs`, not 0: the link is
written, and the target is the old register or the link value; one free value is taken. -/
def Obligations.JalrThroughItsLink : Prop :=
  ∀ (r : Reg) (s : State), r ≠ 0 →
    ∃ t a, (a = s.reg r ∨ a = s.pc + 4) ∧ exec (.jalr r r) s = .next t ∧ Transfers a r (s.pc + 4) 1 s t

/-! ## Loads -/

/-- R191, R192, from every byte of every array. -/
def Obligations.ByteLoads : Prop :=
  ∀ (rt rs : Reg) (imm : BitVec 16) (s : State) (a : ArrayId),
    classify s.params.regions (effAddr s rs imm) = some (.array a) →
    (∃ t v, exec (.lb rt rs imm) s = .next t ∧ WritesRegister rt v s t ∧
      v.toInt = (s.cell a (localIndex a (effAddr s rs imm))).toInt) ∧
    (∃ t v, exec (.lbu rt rs imm) s = .next t ∧ WritesRegister rt v s t ∧
      v.toNat = (s.cell a (localIndex a (effAddr s rs imm))).toNat)

/-- Aligned `lh`, `lhu` and `lw` from an array: little-endian (the spec's decision D1), sign- or zero-extended. -/
def Obligations.AlignedHalfAndWordLoads : Prop :=
  ∀ (rt rs : Reg) (imm : BitVec 16) (s : State) (a : ArrayId) (i : Nat), i = localIndex a (effAddr s rs imm) →
    (Reaches s (effAddr s rs imm) .half a →
      (∃ t v, exec (.lh rt rs imm) s = .next t ∧ WritesRegister rt v s t ∧
        v.toInt = 2 ^ 8 * (s.cell a (i + 1)).toInt + (s.cell a i).toNat) ∧
      (∃ t v, exec (.lhu rt rs imm) s = .next t ∧ WritesRegister rt v s t ∧
        v.toNat = 2 ^ 8 * (s.cell a (i + 1)).toNat + (s.cell a i).toNat)) ∧
    (Reaches s (effAddr s rs imm) .word a →
      ∃ t v, exec (.lw rt rs imm) s = .next t ∧ WritesRegister rt v s t ∧
        v.toNat = 2 ^ 24 * (s.cell a (i + 3)).toNat + 2 ^ 16 * (s.cell a (i + 2)).toNat +
          2 ^ 8 * (s.cell a (i + 1)).toNat + (s.cell a i).toNat)

/-- A misaligned halfword or word load raises code 4 before anything is classified or read, and (the spec's decision
D9) writes 0 to its destination all the same. -/
def Obligations.MisalignedLoadsTrap : Prop :=
  ∀ (rt rs : Reg) (imm : BitVec 16) (s : State),
    ((effAddr s rs imm).toNat % 2 ≠ 0 →
      (∃ t, exec (.lh rt rs imm) s = .next t ∧ EntersException 4 s t ∧
        ∀ q, t.reg q = if q = rt then 0 else s.reg q) ∧
      (∃ t, exec (.lhu rt rs imm) s = .next t ∧ EntersException 4 s t ∧
        ∀ q, t.reg q = if q = rt then 0 else s.reg q)) ∧
    ((effAddr s rs imm).toNat % 4 ≠ 0 →
      ∃ t, exec (.lw rt rs imm) s = .next t ∧ EntersException 4 s t ∧
        ∀ q, t.reg q = if q = rt then 0 else s.reg q)

/-- The spec's decision D7: an aligned load or store at an address in no region sets the latch and changes nothing
else; `swl` and `swr` halt at their read. -/
def Obligations.UnmappedAccessHalts : Prop :=
  ∀ (i : Instr) (s : State) (addr : Word) (n : Width) (kind : AccessKind),
    accessOf s i = some (addr, n, kind) → aligned addr n = true → classify s.params.regions addr = none →
    ∃ t, exec i s = .next t ∧ Halts (.unmappedAddress addr kind) s t

/-- The parameter DEV on loads (log 4; the spec's decision D24): a load in a peripheral window hands the device the raw
address and the width, once, and takes what it answers, sign- or zero-extended or merged as from memory. Nothing else
changes. -/
def Obligations.PeripheralLoads : Prop :=
  ∀ (rt rs : Reg) (imm : BitVec 16) (s : State) (d : Dev) (ea al : Word), ea = effAddr s rs imm → al = alignedAddr ea →
    (classify s.params.regions ea = some (.dev d) →
      (∀ a k, DevAnswers s d .byte ea a k →
        (∃ t v, exec (.lb rt rs imm) s = .next t ∧ LoadsRegister rt v [.load d .byte ea] k s t ∧
          v.toInt = (byteOf a 0).toInt) ∧
        (∃ t, exec (.lbu rt rs imm) s = .next t ∧ LoadsRegister rt a [.load d .byte ea] k s t)) ∧
      (∀ a k, ea.toNat % 2 = 0 → DevAnswers s d .half ea a k →
        (∃ t v, exec (.lh rt rs imm) s = .next t ∧ LoadsRegister rt v [.load d .half ea] k s t ∧
          v.toInt = 2 ^ 8 * (byteOf a 1).toInt + (byteOf a 0).toNat) ∧
        (∃ t, exec (.lhu rt rs imm) s = .next t ∧ LoadsRegister rt a [.load d .half ea] k s t)) ∧
      (∀ a k, ea.toNat % 4 = 0 → DevAnswers s d .word ea a k →
        ∃ t, exec (.lw rt rs imm) s = .next t ∧ LoadsRegister rt a [.load d .word ea] k s t)) ∧
    (classify s.params.regions al = some (.dev d) → ∀ a k, DevAnswers s d .word al a k →
      (∃ t v, exec (.lwl rt rs imm) s = .next t ∧ LoadsRegister rt v [.load d .word al] k s t ∧
        ∀ j, j < 4 → byteOf v j =
          if 3 ≤ j + ea.toNat % 4 then byteOf a (j + ea.toNat % 4 - 3) else byteOf (s.reg rt) j) ∧
      (∃ t v, exec (.lwr rt rs imm) s = .next t ∧ LoadsRegister rt v [.load d .word al] k s t ∧
        ∀ j, j < 4 → byteOf v j =
          if j + ea.toNat % 4 < 4 then byteOf a (j + ea.toNat % 4) else byteOf (s.reg rt) j))

/-- The parameter DEV on stores (log 4; the spec's decisions D24, D29): a store in a peripheral window hands the device
the raw address, the width and the value; `swl` and `swr` are one 32-bit read and one 32-bit write of the merged word.
Nothing else changes. -/
def Obligations.PeripheralStores : Prop :=
  ∀ (rt rs : Reg) (imm : BitVec 16) (s : State) (d : Dev) (ea al : Word), ea = effAddr s rs imm → al = alignedAddr ea →
    (classify s.params.regions ea = some (.dev d) →
      (∃ t, exec (.sb rt rs imm) s = .next t ∧
        LoadsRegister 0 0 [.store d .byte ea (BitVec.ofNat 32 ((s.reg rt).toNat % 2 ^ 8))] 0 s t) ∧
      (ea.toNat % 2 = 0 → ∃ t, exec (.sh rt rs imm) s = .next t ∧
        LoadsRegister 0 0 [.store d .half ea (BitVec.ofNat 32 ((s.reg rt).toNat % 2 ^ 16))] 0 s t) ∧
      (ea.toNat % 4 = 0 → ∃ t, exec (.sw rt rs imm) s = .next t ∧
        LoadsRegister 0 0 [.store d .word ea (s.reg rt)] 0 s t)) ∧
    (classify s.params.regions al = some (.dev d) → ∀ a k, DevAnswers s d .word al a k →
      (∃ t v, exec (.swl rt rs imm) s = .next t ∧
        LoadsRegister 0 0 [.load d .word al, .store d .word al v] k s t ∧
        ∀ j, j < 4 → byteOf v j =
          if j ≤ ea.toNat % 4 then byteOf (s.reg rt) (3 - ea.toNat % 4 + j) else byteOf a j) ∧
      (∃ t v, exec (.swr rt rs imm) s = .next t ∧
        LoadsRegister 0 0 [.load d .word al, .store d .word al v] k s t ∧
        ∀ j, j < 4 → byteOf v j =
          if ea.toNat % 4 ≤ j then byteOf (s.reg rt) (j - ea.toNat % 4) else byteOf a j))

/-- R198, R199: `lwl` puts the bytes from the aligned address up to and including `ea` in the most significant end of
`x[rt]`, `lwr` those from `ea` to the end of its word in the least significant end; the rest of `x[rt]` is kept. -/
def Obligations.UnalignedLoadMerges : Prop :=
  ∀ (rt rs : Reg) (imm : BitVec 16) (s : State) (a : ArrayId) (i k : Nat),
    classify s.params.regions (alignedAddr (effAddr s rs imm)) = some (.array a) →
    i = localIndex a (alignedAddr (effAddr s rs imm)) → k = (effAddr s rs imm).toNat % 4 →
    (∃ t v, exec (.lwl rt rs imm) s = .next t ∧ WritesRegister rt v s t ∧
      ∀ j, j < 4 → byteOf v j = if 3 ≤ j + k then s.cell a (i + (j + k - 3)) else byteOf (s.reg rt) j) ∧
    (∃ t v, exec (.lwr rt rs imm) s = .next t ∧ WritesRegister rt v s t ∧
      ∀ j, j < 4 → byteOf v j = if j + k < 4 then s.cell a (i + (j + k)) else byteOf (s.reg rt) j)

/-! ## Stores -/

/-- R196, R197, R202: the low bytes of `x[rt]` go to the bytes at the effective address, little-endian, and every other
byte of every array is as before; a misaligned halfword or word store raises code 5 and stores nothing. -/
def Obligations.AlignedStoresOrTrap : Prop :=
  ∀ (rt rs : Reg) (imm : BitVec 16) (s : State),
    (∀ a, s.arraysWf = true → TakesStores s a →
      (Reaches s (effAddr s rs imm) .byte a → ∃ t, exec (.sb rt rs imm) s = .next t ∧
        StoresBytes a (localIndex a (effAddr s rs imm)) 1 (byteOf (s.reg rt)) s t) ∧
      (Reaches s (effAddr s rs imm) .half a → ∃ t, exec (.sh rt rs imm) s = .next t ∧
        StoresBytes a (localIndex a (effAddr s rs imm)) 2 (byteOf (s.reg rt)) s t) ∧
      (Reaches s (effAddr s rs imm) .word a → ∃ t, exec (.sw rt rs imm) s = .next t ∧
        StoresBytes a (localIndex a (effAddr s rs imm)) 4 (byteOf (s.reg rt)) s t)) ∧
    ((effAddr s rs imm).toNat % 2 ≠ 0 →
      ∃ t, exec (.sh rt rs imm) s = .next t ∧ EntersException 5 s t ∧ SameRegs s t) ∧
    ((effAddr s rs imm).toNat % 4 ≠ 0 →
      ∃ t, exec (.sw rt rs imm) s = .next t ∧ EntersException 5 s t ∧ SameRegs s t)

/-- An aligned store to RAM while the cache is isolated, or to ROM (the spec's decision D18), changes nothing. -/
def Obligations.DiscardedStores : Prop :=
  ∀ (rt rs : Reg) (imm : BitVec 16) (s : State) (a : ArrayId), (a = .rom ∨ (a = .ram ∧ s.cacheIsolated = true)) →
    (Reaches s (effAddr s rs imm) .byte a → ∃ t, exec (.sb rt rs imm) s = .next t ∧ Unchanged s t) ∧
    (Reaches s (effAddr s rs imm) .half a → ∃ t, exec (.sh rt rs imm) s = .next t ∧ Unchanged s t) ∧
    (Reaches s (effAddr s rs imm) .word a → ∃ t, exec (.sw rt rs imm) s = .next t ∧ Unchanged s t) ∧
    (Reaches s (alignedAddr (effAddr s rs imm)) .word a →
      (∃ t, exec (.swl rt rs imm) s = .next t ∧ Unchanged s t) ∧
      (∃ t, exec (.swr rt rs imm) s = .next t ∧ Unchanged s t))

/-- R200, R201: `swl` stores the most significant `k + 1` bytes of `x[rt]` from the aligned address up to and including
`ea`, `swr` the least significant `4 - k` from `ea` to the end of its word; every other byte is as before. -/
def Obligations.UnalignedStoreMerges : Prop :=
  ∀ (rt rs : Reg) (imm : BitVec 16) (s : State) (a : ArrayId) (i k : Nat),
    s.arraysWf = true → TakesStores s a →
    classify s.params.regions (alignedAddr (effAddr s rs imm)) = some (.array a) →
    i = localIndex a (alignedAddr (effAddr s rs imm)) → k = (effAddr s rs imm).toNat % 4 →
    (∃ t, exec (.swl rt rs imm) s = .next t ∧
      StoresBytes a i (k + 1) (fun j => byteOf (s.reg rt) (3 - k + j)) s t) ∧
    (∃ t, exec (.swr rt rs imm) s = .next t ∧
      StoresBytes a (i + k) (4 - k) (fun j => byteOf (s.reg rt) j) s t)

/-! ## Memory over several instructions -/

/-- The pair `lwr rt, a` ; `lwl rt, a + 3`, in either order, leaves in `x[rt]` the little-endian word of the four bytes
from `a` up, whatever `x[rt]` held and wherever `a` stands in its word. `A`, `B` are the arrays of the aligned words of
`a` and `a + 3`; byte `j` of the word stands in the first while `a % 4 + j < 4`, then in the second. -/
def Obligations.UnalignedLoadPair : Prop :=
  ∀ (rt rs : Reg) (lo hi : BitVec 16) (s : State) (A B : ArrayId),
    rt ≠ 0 → rs ≠ rt → effAddr s rs hi = effAddr s rs lo + 3 →
    classify s.params.regions (alignedAddr (effAddr s rs lo)) = some (.array A) →
    classify s.params.regions (alignedAddr (effAddr s rs hi)) = some (.array B) →
    ∃ v, (∀ j, j < 4 → byteOf v j =
        if (effAddr s rs lo).toNat % 4 + j < 4
        then s.cell A (localIndex A (alignedAddr (effAddr s rs lo)) + ((effAddr s rs lo).toNat % 4 + j))
        else s.cell B (localIndex B (alignedAddr (effAddr s rs hi)) + ((effAddr s rs lo).toNat % 4 + j - 4))) ∧
      (∃ t u, exec (.lwr rt rs lo) s = .next t ∧ exec (.lwl rt rs hi) t = .next u ∧ WritesRegister rt v s u) ∧
      (∃ t u, exec (.lwl rt rs hi) s = .next t ∧ exec (.lwr rt rs lo) t = .next u ∧ WritesRegister rt v s u)

/-- The pair `swr rt, a` ; `swl rt, a + 3` stores `x[rt]` to the four bytes from `a` up and changes no other byte. -/
def Obligations.UnalignedStorePair : Prop :=
  ∀ (rt rs : Reg) (lo hi : BitVec 16) (s : State) (A B : ArrayId),
    s.arraysWf = true → TakesStores s A → TakesStores s B → effAddr s rs hi = effAddr s rs lo + 3 →
    classify s.params.regions (alignedAddr (effAddr s rs lo)) = some (.array A) →
    classify s.params.regions (alignedAddr (effAddr s rs hi)) = some (.array B) →
    ∃ t u, exec (.swr rt rs lo) s = .next t ∧ exec (.swl rt rs hi) t = .next u ∧
      SameRegs s u ∧ SamePcs s u ∧ SameHiLo s u ∧ SameCp0 s u ∧ SameOutside s u ∧
      ∀ c j, u.cell c j =
        if c = A ∧ localIndex A (alignedAddr (effAddr s rs lo)) + (effAddr s rs lo).toNat % 4 ≤ j ∧
            j < localIndex A (alignedAddr (effAddr s rs lo)) + 4
        then byteOf (s.reg rt) (j - (localIndex A (alignedAddr (effAddr s rs lo)) + (effAddr s rs lo).toNat % 4))
        else if c = B ∧ (effAddr s rs lo).toNat % 4 ≠ 0 ∧ localIndex B (alignedAddr (effAddr s rs hi)) ≤ j ∧
            j < localIndex B (alignedAddr (effAddr s rs hi)) + (effAddr s rs lo).toNat % 4
        then byteOf (s.reg rt) (4 - (effAddr s rs lo).toNat % 4 + (j - localIndex B (alignedAddr (effAddr s rs hi))))
        else s.cell c j

/-- R59: with any admitted address map, an aligned load of any width through any of the three RAM bases returns the
bytes at the address masked to 2 MB, lowest address first; a store stores there, unless the cache is isolated; so what
is stored through one base is read back through any of the three. -/
def Obligations.RamMirrorsAlias : Prop :=
  ∀ (s : State) (b c off v : Word) (n : Width) (kind : AccessKind),
    paramsWf s.params = true →
    (b = 0x00000000 ∨ b = 0x80000000 ∨ b = 0xA0000000) → (c = 0x00000000 ∨ c = 0x80000000 ∨ c = 0xA0000000) →
    off.toNat < 0x200000 → off.toNat % widthBytes n = 0 →
    (∃ w, memRead kind (b + off) n s = .value w s ∧
      ∀ k, k < 4 → byteOf w k = if k < widthBytes n then s.cell .ram (off.toNat + k) else 0) ∧
    (s.cacheIsolated = true → memWrite (b + off) n v s = s) ∧
    (s.arraysWf = true → s.cacheIsolated = false →
      StoresBytes .ram off.toNat (widthBytes n) (byteOf v) s (memWrite (b + off) n v s) ∧
      ∃ w, memRead kind (c + off) n (memWrite (b + off) n v s) = .value w (memWrite (b + off) n v s) ∧
        ∀ k, k < 4 → byteOf w k = if k < widthBytes n then byteOf v k else 0)

/-- A store is seen by the very next fetch of the same bytes, also through another window of the same array. -/
def Obligations.StoreSeenByNextFetch : Prop :=
  ∀ (rt rs : Reg) (imm : BitVec 16) (s t : State) (a : ArrayId),
    s.arraysWf = true → TakesStores s a → Reaches s (effAddr s rs imm) .word a → Reaches s s.pc .word a →
    localIndex a s.pc = localIndex a (effAddr s rs imm) → exec (.sw rt rs imm) s = .next t →
    fetch t = .word (s.reg rt) t

/-! ## Coprocessor 0 and the system call -/

/-- R210, R211: every index is valid, all 32 bits move, and `sr`, `cause`, `epc` are words 12, 13, 14 of the bank. -/
def Obligations.Cp0Moves : Prop :=
  ∀ (rt rd : Reg) (s : State),
    (∃ t, exec (.mfc0 rt rd) s = .next t ∧ WritesRegister rt (s.cp0Word rd) s t) ∧
    (∃ t, exec (.mtc0 rt rd) s = .next t ∧ (∀ k, t.cp0Word k = if k = rd then s.reg rt else s.cp0Word k) ∧
      (rd = 12 → t.sr = s.reg rt) ∧ (rd = 13 → t.cause = s.reg rt) ∧ (rd = 14 → t.epc = s.reg rt) ∧
      SameRegs s t ∧ SamePcs s t ∧ SameHiLo s t ∧ SameMemory s t ∧ SameOutside s t)

/-- R212, bit by bit: current takes previous, previous takes old, old becomes 0, bits 31:6 are kept; nothing else
changes. -/
def Obligations.RfePopsModeStack : Prop :=
  ∀ s : State,
    ∃ t, exec .rfe s = .next t ∧
      (∀ k, k < 32 →
        t.sr.getLsbD k = if 6 ≤ k then s.sr.getLsbD k else if 4 ≤ k then false else s.sr.getLsbD (k + 2)) ∧
      (∀ k, k ≠ 12 → t.cp0Word k = s.cp0Word k) ∧ SameRegs s t ∧ SamePcs s t ∧ SameHiLo s t ∧ SameMemory s t ∧
      SameOutside s t

/-- R213. -/
def Obligations.SyscallTraps : Prop :=
  ∀ s : State, ∃ t, exec .syscall s = .next t ∧ EntersException 8 s t ∧ SameRegs s t
end

