-- ==== Sys2Proof/Laws/State.lean ====
section
/-! SUPPORT. One lemma per field per update of State, so that no later proof unfolds a record update. -/

namespace Sys2Proof.Machine

@[simp] theorem setHiLo_pc (s : State) (h l : Word) : (s.setHiLo h l).pc = s.pc := rfl
@[simp] theorem setHiLo_nextPc (s : State) (h l : Word) : (s.setHiLo h l).nextPc = s.nextPc := rfl
@[simp] theorem setHiLo_currentPc (s : State) (h l : Word) : (s.setHiLo h l).currentPc = s.currentPc := rfl
@[simp] theorem setHiLo_regs (s : State) (h l : Word) : (s.setHiLo h l).regs = s.regs := rfl
@[simp] theorem setHiLo_hi (s : State) (h l : Word) : (s.setHiLo h l).hi = h := rfl
@[simp] theorem setHiLo_lo (s : State) (h l : Word) : (s.setHiLo h l).lo = l := rfl
@[simp] theorem setHiLo_cp0 (s : State) (h l : Word) : (s.setHiLo h l).cp0 = s.cp0 := rfl
@[simp] theorem setHiLo_halt (s : State) (h l : Word) : (s.setHiLo h l).halt = s.halt := rfl
@[simp] theorem setHiLo_ram (s : State) (h l : Word) : (s.setHiLo h l).ram = s.ram := rfl
@[simp] theorem setHiLo_rom (s : State) (h l : Word) : (s.setHiLo h l).rom = s.rom := rfl
@[simp] theorem setHiLo_scratch (s : State) (h l : Word) : (s.setHiLo h l).scratch = s.scratch := rfl
@[simp] theorem setHiLo_params (s : State) (h l : Word) : (s.setHiLo h l).params = s.params := rfl
@[simp] theorem setHiLo_devCalls (s : State) (h l : Word) : (s.setHiLo h l).devCalls = s.devCalls := rfl
@[simp] theorem setHiLo_draws (s : State) (h l : Word) : (s.setHiLo h l).draws = s.draws := rfl

@[simp] theorem setNextPc_pc (s : State) (t : Word) : (s.setNextPc t).pc = s.pc := rfl
@[simp] theorem setNextPc_nextPc (s : State) (t : Word) : (s.setNextPc t).nextPc = t := rfl
@[simp] theorem setNextPc_currentPc (s : State) (t : Word) : (s.setNextPc t).currentPc = s.currentPc := rfl
@[simp] theorem setNextPc_regs (s : State) (t : Word) : (s.setNextPc t).regs = s.regs := rfl
@[simp] theorem setNextPc_hi (s : State) (t : Word) : (s.setNextPc t).hi = s.hi := rfl
@[simp] theorem setNextPc_lo (s : State) (t : Word) : (s.setNextPc t).lo = s.lo := rfl
@[simp] theorem setNextPc_cp0 (s : State) (t : Word) : (s.setNextPc t).cp0 = s.cp0 := rfl
@[simp] theorem setNextPc_halt (s : State) (t : Word) : (s.setNextPc t).halt = s.halt := rfl
@[simp] theorem setNextPc_ram (s : State) (t : Word) : (s.setNextPc t).ram = s.ram := rfl
@[simp] theorem setNextPc_rom (s : State) (t : Word) : (s.setNextPc t).rom = s.rom := rfl
@[simp] theorem setNextPc_scratch (s : State) (t : Word) : (s.setNextPc t).scratch = s.scratch := rfl
@[simp] theorem setNextPc_params (s : State) (t : Word) : (s.setNextPc t).params = s.params := rfl
@[simp] theorem setNextPc_devCalls (s : State) (t : Word) : (s.setNextPc t).devCalls = s.devCalls := rfl
@[simp] theorem setNextPc_draws (s : State) (t : Word) : (s.setNextPc t).draws = s.draws := rfl

@[simp] theorem setHalted_pc (s : State) (r : HaltReason) : (s.setHalted r).pc = s.pc := rfl
@[simp] theorem setHalted_nextPc (s : State) (r : HaltReason) : (s.setHalted r).nextPc = s.nextPc := rfl
@[simp] theorem setHalted_currentPc (s : State) (r : HaltReason) : (s.setHalted r).currentPc = s.currentPc := rfl
@[simp] theorem setHalted_regs (s : State) (r : HaltReason) : (s.setHalted r).regs = s.regs := rfl
@[simp] theorem setHalted_hi (s : State) (r : HaltReason) : (s.setHalted r).hi = s.hi := rfl
@[simp] theorem setHalted_lo (s : State) (r : HaltReason) : (s.setHalted r).lo = s.lo := rfl
@[simp] theorem setHalted_cp0 (s : State) (r : HaltReason) : (s.setHalted r).cp0 = s.cp0 := rfl
@[simp] theorem setHalted_halt (s : State) (r : HaltReason) : (s.setHalted r).halt = .halted r := rfl
@[simp] theorem setHalted_ram (s : State) (r : HaltReason) : (s.setHalted r).ram = s.ram := rfl
@[simp] theorem setHalted_rom (s : State) (r : HaltReason) : (s.setHalted r).rom = s.rom := rfl
@[simp] theorem setHalted_scratch (s : State) (r : HaltReason) : (s.setHalted r).scratch = s.scratch := rfl
@[simp] theorem setHalted_params (s : State) (r : HaltReason) : (s.setHalted r).params = s.params := rfl
@[simp] theorem setHalted_devCalls (s : State) (r : HaltReason) : (s.setHalted r).devCalls = s.devCalls := rfl
@[simp] theorem setHalted_draws (s : State) (r : HaltReason) : (s.setHalted r).draws = s.draws := rfl

@[simp] theorem countDraw_pc (s : State) : (s.countDraw).pc = s.pc := rfl
@[simp] theorem countDraw_nextPc (s : State) : (s.countDraw).nextPc = s.nextPc := rfl
@[simp] theorem countDraw_currentPc (s : State) : (s.countDraw).currentPc = s.currentPc := rfl
@[simp] theorem countDraw_regs (s : State) : (s.countDraw).regs = s.regs := rfl
@[simp] theorem countDraw_hi (s : State) : (s.countDraw).hi = s.hi := rfl
@[simp] theorem countDraw_lo (s : State) : (s.countDraw).lo = s.lo := rfl
@[simp] theorem countDraw_cp0 (s : State) : (s.countDraw).cp0 = s.cp0 := rfl
@[simp] theorem countDraw_halt (s : State) : (s.countDraw).halt = s.halt := rfl
@[simp] theorem countDraw_ram (s : State) : (s.countDraw).ram = s.ram := rfl
@[simp] theorem countDraw_rom (s : State) : (s.countDraw).rom = s.rom := rfl
@[simp] theorem countDraw_scratch (s : State) : (s.countDraw).scratch = s.scratch := rfl
@[simp] theorem countDraw_params (s : State) : (s.countDraw).params = s.params := rfl
@[simp] theorem countDraw_devCalls (s : State) : (s.countDraw).devCalls = s.devCalls := rfl
@[simp] theorem countDraw_draws (s : State) : (s.countDraw).draws = s.draws + 1 := rfl

@[simp] theorem logDevCall_pc (s : State) (c : DevCall) : (s.logDevCall c).pc = s.pc := rfl
@[simp] theorem logDevCall_nextPc (s : State) (c : DevCall) : (s.logDevCall c).nextPc = s.nextPc := rfl
@[simp] theorem logDevCall_currentPc (s : State) (c : DevCall) : (s.logDevCall c).currentPc = s.currentPc := rfl
@[simp] theorem logDevCall_regs (s : State) (c : DevCall) : (s.logDevCall c).regs = s.regs := rfl
@[simp] theorem logDevCall_hi (s : State) (c : DevCall) : (s.logDevCall c).hi = s.hi := rfl
@[simp] theorem logDevCall_lo (s : State) (c : DevCall) : (s.logDevCall c).lo = s.lo := rfl
@[simp] theorem logDevCall_cp0 (s : State) (c : DevCall) : (s.logDevCall c).cp0 = s.cp0 := rfl
@[simp] theorem logDevCall_halt (s : State) (c : DevCall) : (s.logDevCall c).halt = s.halt := rfl
@[simp] theorem logDevCall_ram (s : State) (c : DevCall) : (s.logDevCall c).ram = s.ram := rfl
@[simp] theorem logDevCall_rom (s : State) (c : DevCall) : (s.logDevCall c).rom = s.rom := rfl
@[simp] theorem logDevCall_scratch (s : State) (c : DevCall) : (s.logDevCall c).scratch = s.scratch := rfl
@[simp] theorem logDevCall_params (s : State) (c : DevCall) : (s.logDevCall c).params = s.params := rfl
@[simp] theorem logDevCall_devCalls (s : State) (c : DevCall) : (s.logDevCall c).devCalls = s.devCalls ++ [c] := rfl
@[simp] theorem logDevCall_draws (s : State) (c : DevCall) : (s.logDevCall c).draws = s.draws := rfl

@[simp] theorem setCp0Word_pc (s : State) (k : Reg) (v : Word) : (s.setCp0Word k v).pc = s.pc := rfl
@[simp] theorem setCp0Word_nextPc (s : State) (k : Reg) (v : Word) : (s.setCp0Word k v).nextPc = s.nextPc := rfl
@[simp] theorem setCp0Word_currentPc (s : State) (k : Reg) (v : Word) : (s.setCp0Word k v).currentPc = s.currentPc := rfl
@[simp] theorem setCp0Word_regs (s : State) (k : Reg) (v : Word) : (s.setCp0Word k v).regs = s.regs := rfl
@[simp] theorem setCp0Word_hi (s : State) (k : Reg) (v : Word) : (s.setCp0Word k v).hi = s.hi := rfl
@[simp] theorem setCp0Word_lo (s : State) (k : Reg) (v : Word) : (s.setCp0Word k v).lo = s.lo := rfl
@[simp] theorem setCp0Word_cp0 (s : State) (k : Reg) (v : Word) : (s.setCp0Word k v).cp0 = s.cp0.set k.val v := rfl
@[simp] theorem setCp0Word_halt (s : State) (k : Reg) (v : Word) : (s.setCp0Word k v).halt = s.halt := rfl
@[simp] theorem setCp0Word_ram (s : State) (k : Reg) (v : Word) : (s.setCp0Word k v).ram = s.ram := rfl
@[simp] theorem setCp0Word_rom (s : State) (k : Reg) (v : Word) : (s.setCp0Word k v).rom = s.rom := rfl
@[simp] theorem setCp0Word_scratch (s : State) (k : Reg) (v : Word) : (s.setCp0Word k v).scratch = s.scratch := rfl
@[simp] theorem setCp0Word_params (s : State) (k : Reg) (v : Word) : (s.setCp0Word k v).params = s.params := rfl
@[simp] theorem setCp0Word_devCalls (s : State) (k : Reg) (v : Word) : (s.setCp0Word k v).devCalls = s.devCalls := rfl
@[simp] theorem setCp0Word_draws (s : State) (k : Reg) (v : Word) : (s.setCp0Word k v).draws = s.draws := rfl

@[simp] theorem advance_pc (s : State) : (advance s).pc = s.nextPc := rfl
@[simp] theorem advance_nextPc (s : State) : (advance s).nextPc = s.nextPc + 4 := rfl
@[simp] theorem advance_currentPc (s : State) : (advance s).currentPc = s.pc := rfl
@[simp] theorem advance_regs (s : State) : (advance s).regs = s.regs := rfl
@[simp] theorem advance_hi (s : State) : (advance s).hi = s.hi := rfl
@[simp] theorem advance_lo (s : State) : (advance s).lo = s.lo := rfl
@[simp] theorem advance_cp0 (s : State) : (advance s).cp0 = s.cp0 := rfl
@[simp] theorem advance_halt (s : State) : (advance s).halt = s.halt := rfl
@[simp] theorem advance_ram (s : State) : (advance s).ram = s.ram := rfl
@[simp] theorem advance_rom (s : State) : (advance s).rom = s.rom := rfl
@[simp] theorem advance_scratch (s : State) : (advance s).scratch = s.scratch := rfl
@[simp] theorem advance_params (s : State) : (advance s).params = s.params := rfl
@[simp] theorem advance_devCalls (s : State) : (advance s).devCalls = s.devCalls := rfl
@[simp] theorem advance_draws (s : State) : (advance s).draws = s.draws := rfl

@[simp] theorem raiseExc_pc (c : ExcCode) (s : State) : (raiseExc c s).pc = handlerAddress s := rfl
@[simp] theorem raiseExc_nextPc (c : ExcCode) (s : State) : (raiseExc c s).nextPc = handlerAddress s + 4 := rfl
@[simp] theorem raiseExc_currentPc (c : ExcCode) (s : State) : (raiseExc c s).currentPc = s.currentPc := rfl
@[simp] theorem raiseExc_regs (c : ExcCode) (s : State) : (raiseExc c s).regs = s.regs := rfl
@[simp] theorem raiseExc_hi (c : ExcCode) (s : State) : (raiseExc c s).hi = s.hi := rfl
@[simp] theorem raiseExc_lo (c : ExcCode) (s : State) : (raiseExc c s).lo = s.lo := rfl
@[simp] theorem raiseExc_halt (c : ExcCode) (s : State) : (raiseExc c s).halt = s.halt := rfl
@[simp] theorem raiseExc_ram (c : ExcCode) (s : State) : (raiseExc c s).ram = s.ram := rfl
@[simp] theorem raiseExc_rom (c : ExcCode) (s : State) : (raiseExc c s).rom = s.rom := rfl
@[simp] theorem raiseExc_scratch (c : ExcCode) (s : State) : (raiseExc c s).scratch = s.scratch := rfl
@[simp] theorem raiseExc_params (c : ExcCode) (s : State) : (raiseExc c s).params = s.params := rfl
@[simp] theorem raiseExc_devCalls (c : ExcCode) (s : State) : (raiseExc c s).devCalls = s.devCalls := rfl
@[simp] theorem raiseExc_draws (c : ExcCode) (s : State) : (raiseExc c s).draws = s.draws := rfl

@[simp] theorem restoreModes_pc (s : State) : (restoreModes s).pc = s.pc := rfl
@[simp] theorem restoreModes_nextPc (s : State) : (restoreModes s).nextPc = s.nextPc := rfl
@[simp] theorem restoreModes_currentPc (s : State) : (restoreModes s).currentPc = s.currentPc := rfl
@[simp] theorem restoreModes_regs (s : State) : (restoreModes s).regs = s.regs := rfl
@[simp] theorem restoreModes_hi (s : State) : (restoreModes s).hi = s.hi := rfl
@[simp] theorem restoreModes_lo (s : State) : (restoreModes s).lo = s.lo := rfl
@[simp] theorem restoreModes_halt (s : State) : (restoreModes s).halt = s.halt := rfl
@[simp] theorem restoreModes_ram (s : State) : (restoreModes s).ram = s.ram := rfl
@[simp] theorem restoreModes_rom (s : State) : (restoreModes s).rom = s.rom := rfl
@[simp] theorem restoreModes_scratch (s : State) : (restoreModes s).scratch = s.scratch := rfl
@[simp] theorem restoreModes_params (s : State) : (restoreModes s).params = s.params := rfl
@[simp] theorem restoreModes_devCalls (s : State) : (restoreModes s).devCalls = s.devCalls := rfl
@[simp] theorem restoreModes_draws (s : State) : (restoreModes s).draws = s.draws := rfl

@[simp] theorem assertReset_pc (s : State) : (s.assertReset).pc = resetPc := rfl
@[simp] theorem assertReset_nextPc (s : State) : (s.assertReset).nextPc = resetPc + 4 := rfl
@[simp] theorem assertReset_currentPc (s : State) : (s.assertReset).currentPc = s.currentPc := rfl
@[simp] theorem assertReset_regs (s : State) : (s.assertReset).regs = s.regs.set 0 0 := rfl
@[simp] theorem assertReset_hi (s : State) : (s.assertReset).hi = s.hi := rfl
@[simp] theorem assertReset_lo (s : State) : (s.assertReset).lo = s.lo := rfl
@[simp] theorem assertReset_halt (s : State) : (s.assertReset).halt = .running := rfl
@[simp] theorem assertReset_ram (s : State) : (s.assertReset).ram = s.ram := rfl
@[simp] theorem assertReset_rom (s : State) : (s.assertReset).rom = s.rom := rfl
@[simp] theorem assertReset_scratch (s : State) : (s.assertReset).scratch = s.scratch := rfl
@[simp] theorem assertReset_params (s : State) : (s.assertReset).params = s.params := rfl
@[simp] theorem assertReset_devCalls (s : State) : (s.assertReset).devCalls = s.devCalls := rfl
@[simp] theorem assertReset_draws (s : State) : (s.assertReset).draws = s.draws := rfl

@[simp] theorem setReg_pc (s : State) (r : Reg) (v : Word) : (s.setReg r v).pc = s.pc := by unfold State.setReg; split <;> rfl
@[simp] theorem setReg_nextPc (s : State) (r : Reg) (v : Word) : (s.setReg r v).nextPc = s.nextPc := by unfold State.setReg; split <;> rfl
@[simp] theorem setReg_currentPc (s : State) (r : Reg) (v : Word) : (s.setReg r v).currentPc = s.currentPc := by unfold State.setReg; split <;> rfl
@[simp] theorem setReg_hi (s : State) (r : Reg) (v : Word) : (s.setReg r v).hi = s.hi := by unfold State.setReg; split <;> rfl
@[simp] theorem setReg_lo (s : State) (r : Reg) (v : Word) : (s.setReg r v).lo = s.lo := by unfold State.setReg; split <;> rfl
@[simp] theorem setReg_cp0 (s : State) (r : Reg) (v : Word) : (s.setReg r v).cp0 = s.cp0 := by unfold State.setReg; split <;> rfl
@[simp] theorem setReg_halt (s : State) (r : Reg) (v : Word) : (s.setReg r v).halt = s.halt := by unfold State.setReg; split <;> rfl
@[simp] theorem setReg_ram (s : State) (r : Reg) (v : Word) : (s.setReg r v).ram = s.ram := by unfold State.setReg; split <;> rfl
@[simp] theorem setReg_rom (s : State) (r : Reg) (v : Word) : (s.setReg r v).rom = s.rom := by unfold State.setReg; split <;> rfl
@[simp] theorem setReg_scratch (s : State) (r : Reg) (v : Word) : (s.setReg r v).scratch = s.scratch := by unfold State.setReg; split <;> rfl
@[simp] theorem setReg_params (s : State) (r : Reg) (v : Word) : (s.setReg r v).params = s.params := by unfold State.setReg; split <;> rfl
@[simp] theorem setReg_devCalls (s : State) (r : Reg) (v : Word) : (s.setReg r v).devCalls = s.devCalls := by unfold State.setReg; split <;> rfl
@[simp] theorem setReg_draws (s : State) (r : Reg) (v : Word) : (s.setReg r v).draws = s.draws := by unfold State.setReg; split <;> rfl

@[simp] theorem setArray_pc (s : State) (a : ArrayId) (m : Memory) : (s.setArray a m).pc = s.pc := by cases a <;> rfl
@[simp] theorem setArray_nextPc (s : State) (a : ArrayId) (m : Memory) : (s.setArray a m).nextPc = s.nextPc := by cases a <;> rfl
@[simp] theorem setArray_currentPc (s : State) (a : ArrayId) (m : Memory) : (s.setArray a m).currentPc = s.currentPc := by cases a <;> rfl
@[simp] theorem setArray_regs (s : State) (a : ArrayId) (m : Memory) : (s.setArray a m).regs = s.regs := by cases a <;> rfl
@[simp] theorem setArray_hi (s : State) (a : ArrayId) (m : Memory) : (s.setArray a m).hi = s.hi := by cases a <;> rfl
@[simp] theorem setArray_lo (s : State) (a : ArrayId) (m : Memory) : (s.setArray a m).lo = s.lo := by cases a <;> rfl
@[simp] theorem setArray_cp0 (s : State) (a : ArrayId) (m : Memory) : (s.setArray a m).cp0 = s.cp0 := by cases a <;> rfl
@[simp] theorem setArray_halt (s : State) (a : ArrayId) (m : Memory) : (s.setArray a m).halt = s.halt := by cases a <;> rfl
@[simp] theorem setArray_params (s : State) (a : ArrayId) (m : Memory) : (s.setArray a m).params = s.params := by cases a <;> rfl
@[simp] theorem setArray_devCalls (s : State) (a : ArrayId) (m : Memory) : (s.setArray a m).devCalls = s.devCalls := by cases a <;> rfl
@[simp] theorem setArray_draws (s : State) (a : ArrayId) (m : Memory) : (s.setArray a m).draws = s.draws := by cases a <;> rfl

end Sys2Proof.Machine
end

