-- ==== Sys2Proof/Laws/Ops.lean ====
section
/-! SUPPORT. What the register operations and the exception entry do, through the accessors. -/

namespace Sys2Proof.Machine

/-! ## General registers -/

@[simp] theorem reg_zero (s : State) : s.reg 0 = 0 := rfl

theorem reg_of_ne_zero (s : State) {r : Reg} (h : r ≠ 0) : s.reg r = s.regs[r.val] := by
  simp [State.reg, h]

/-- The write contract and the read contract of R23 together. -/
theorem reg_setReg (s : State) (r q : Reg) (v : Word) :
    (s.setReg r v).reg q = if q = r ∧ r ≠ 0 then v else s.reg q := by
  by_cases hr : r = 0
  · simp [State.setReg, hr]
  · by_cases hq : q = 0
    · subst hq
      simp [State.reg, Ne.symm hr]
    · by_cases e : q = r
      · subst e
        simp [State.reg, State.setReg, hr]
      · have : r.val ≠ q.val := fun h => e (Fin.ext h.symm)
        simp [State.reg, State.setReg, hr, hq, e, this]

@[simp] theorem reg_setReg_self (s : State) (r : Reg) (v : Word) :
    (s.setReg r v).reg r = if r = 0 then 0 else v := by
  by_cases h : r = 0
  · subst h; rfl
  · simp [reg_setReg, h]

theorem reg_setReg_of_ne (s : State) {r q : Reg} (v : Word) (h : q ≠ r) : (s.setReg r v).reg q = s.reg q := by
  simp [reg_setReg, h]

/-- Registers depend on the register file alone. -/
theorem reg_congr {s t : State} (h : t.regs = s.regs) (r : Reg) : t.reg r = s.reg r := by
  simp [State.reg, h]

/-- The coprocessor-0 words depend on the bank alone. -/
theorem cp0Word_congr {s t : State} (h : t.cp0 = s.cp0) (k : Reg) : t.cp0Word k = s.cp0Word k := by
  simp [State.cp0Word, h]

theorem zeroSlot_setReg (s : State) (r : Reg) (v : Word) : (s.setReg r v).regs[0] = s.regs[0] := by
  unfold State.setReg
  split
  · rfl
  · have : r.val ≠ 0 := fun h => by simp_all [Fin.ext_iff]
    simp [this]

/-! ## The coprocessor-0 bank -/

theorem cp0Word_setCp0Word (s : State) (k j : Reg) (v : Word) :
    (s.setCp0Word k v).cp0Word j = if j = k then v else s.cp0Word j := by
  by_cases h : j = k
  · subst h
    simp [State.cp0Word, State.setCp0Word]
  · have : k.val ≠ j.val := fun e => h (Fin.ext e.symm)
    simp [State.cp0Word, State.setCp0Word, h, this]

@[simp] theorem cp0Word_setReg (s : State) (r k : Reg) (v : Word) : (s.setReg r v).cp0Word k = s.cp0Word k :=
  cp0Word_congr (setReg_cp0 s r v) k

/-! ## Arrays -/

@[simp] theorem array_setArray (s : State) (a b : ArrayId) (m : Memory) :
    (s.setArray a m).array b = if b = a then m else s.array b := by
  cases a <;> cases b <;> rfl

theorem array_congr {s t : State} (hr : t.ram = s.ram) (ho : t.rom = s.rom) (hs : t.scratch = s.scratch)
    (a : ArrayId) : t.array a = s.array a := by
  cases a <;> assumption

@[simp] theorem array_setReg (s : State) (r : Reg) (v : Word) (a : ArrayId) :
    (s.setReg r v).array a = s.array a := array_congr (by simp) (by simp) (by simp) a

/-! ## The exception entry (R224): one lemma per kind of state it writes -/

theorem raiseExc_cp0Word (c : ExcCode) (s : State) (k : Reg) :
    (raiseExc c s).cp0Word k =
      if k = epcIndex then savedPc s else if k = causeIndex then causeWord c
      else if k = srIndex then pushModes s.sr else s.cp0Word k := by
  show (((s.setCp0Word srIndex _).setCp0Word causeIndex _).setCp0Word epcIndex _).cp0Word k = _
  simp only [cp0Word_setCp0Word]

@[simp] theorem raiseExc_sr (c : ExcCode) (s : State) : (raiseExc c s).sr = pushModes s.sr := by
  simp [State.sr, raiseExc_cp0Word, srIndex, causeIndex, epcIndex]

@[simp] theorem raiseExc_cause (c : ExcCode) (s : State) : (raiseExc c s).cause = causeWord c := by
  simp [State.cause, raiseExc_cp0Word, causeIndex, epcIndex]

@[simp] theorem raiseExc_epc (c : ExcCode) (s : State) : (raiseExc c s).epc = savedPc s := by
  simp [State.epc, raiseExc_cp0Word]

@[simp] theorem raiseExc_reg (c : ExcCode) (s : State) (r : Reg) : (raiseExc c s).reg r = s.reg r :=
  reg_congr (raiseExc_regs c s) r

@[simp] theorem raiseExc_array (c : ExcCode) (s : State) (a : ArrayId) : (raiseExc c s).array a = s.array a :=
  array_congr rfl rfl rfl a

/-- `rfe` writes the status register alone (R212). -/
theorem restoreModes_cp0Word (s : State) (k : Reg) :
    (restoreModes s).cp0Word k = if k = srIndex then popModes s.sr else s.cp0Word k :=
  cp0Word_setCp0Word s srIndex k _

/-! ## The mode stack, bit by bit (R227, R212) -/

theorem pushModes_bit (w : Word) (k : Nat) (hk : k < 32) :
    (pushModes w).getLsbD k = if 6 ≤ k then w.getLsbD k else if 2 ≤ k then w.getLsbD (k - 2) else false := by
  have e : pushModes w = (w &&& 0xFFFFFFC0#32) ||| ((w <<< 2) &&& 0x3F#32) := rfl
  have m : (0xFFFFFFC0#32).getLsbD k = decide (6 ≤ k) ∧ (0x3F#32).getLsbD k = decide (k < 6) := by revert k; decide
  rw [e, BitVec.getLsbD_or, BitVec.getLsbD_and, BitVec.getLsbD_and, BitVec.getLsbD_shiftLeft, m.1, m.2]
  by_cases h6 : 6 ≤ k
  · simp [h6, show ¬ k < 6 by omega]
  · by_cases h2 : 2 ≤ k
    · simp [h6, h2, hk, show k < 6 by omega, show ¬ k < 2 by omega]
    · simp [h6, h2, show k < 2 by omega]

theorem popModes_bit (w : Word) (k : Nat) (hk : k < 32) :
    (popModes w).getLsbD k = if 6 ≤ k then w.getLsbD k else if 4 ≤ k then false else w.getLsbD (k + 2) := by
  have e : popModes w = (w &&& 0xFFFFFFC0#32) ||| ((w &&& 0x3F#32) >>> 2) := rfl
  have m : (0xFFFFFFC0#32).getLsbD k = decide (6 ≤ k) ∧ (0x3F#32).getLsbD (2 + k) = decide (k < 4) := by
    revert k; decide
  rw [e, BitVec.getLsbD_or, BitVec.getLsbD_and, BitVec.getLsbD_ushiftRight, BitVec.getLsbD_and, m.1, m.2]
  by_cases h6 : 6 ≤ k
  · simp [h6, show ¬ k < 4 by omega]
  · by_cases h4 : 4 ≤ k
    · simp [h6, h4, show ¬ k < 4 by omega]
    · simp [h6, h4, show k < 4 by omega, Nat.add_comm]

end Sys2Proof.Machine
end

