-- ==== Sys2Proof/Laws/Memory.lean ====
section
/-! SUPPORT. The laws of the memory arrays: read after write, and that every memory operation keeps the canonical form. -/

namespace Sys2Proof.Machine

/-! ## The canonical form -/

theorem wfFrom_cons {size lo k : Nat} {v : Byte} {m : Memory} :
    Memory.wfFrom size lo ((k, v) :: m) = true ↔
      lo ≤ k ∧ k < size ∧ v ≠ blankByte ∧ Memory.wfFrom size (k + 1) m = true := by
  simp [Memory.wfFrom, and_assoc]

theorem wfFrom_mono {size lo lo' : Nat} {m : Memory} (h : Memory.wfFrom size lo m = true) (hl : lo' ≤ lo) :
    Memory.wfFrom size lo' m = true := by
  cases m with
  | nil => rfl
  | cons p m =>
    obtain ⟨k, v⟩ := p
    rw [wfFrom_cons] at h ⊢
    exact ⟨by omega, h.2⟩

/-- Below its lower bound a canonical array lists nothing. -/
theorem read_below {size lo a : Nat} {m : Memory} (h : Memory.wfFrom size lo m = true) (ha : a < lo) :
    Memory.read m a = blankByte := by
  induction m generalizing lo with
  | nil => rfl
  | cons p m ih =>
    obtain ⟨k, v⟩ := p
    rw [wfFrom_cons] at h
    have hk : k ≠ a := by omega
    simp only [Memory.read, hk, if_false]
    exact ih h.2.2.2 (by omega)

theorem wfFrom_write {size lo a : Nat} {m : Memory} (b : Byte) (h : Memory.wfFrom size lo m = true) (hl : lo ≤ a)
    (ha : a < size) : Memory.wfFrom size lo (Memory.write m a b) = true := by
  induction m generalizing lo with
  | nil =>
    by_cases hb : b = blankByte
    · simp [Memory.write, hb, Memory.wfFrom]
    · simp [Memory.write, hb, Memory.wfFrom, hl, ha]
  | cons p m ih =>
    obtain ⟨k, v⟩ := p
    have h' := h
    rw [wfFrom_cons] at h'
    obtain ⟨h1, h2, h3, h4⟩ := h'
    simp only [Memory.write]
    split
    · next hlt => exact wfFrom_cons.2 ⟨h1, h2, h3, ih h4 (by omega)⟩
    · split
      · next hne he =>
        subst he
        split
        · exact wfFrom_mono h4 (by omega)
        · next hb => exact wfFrom_cons.2 ⟨hl, ha, hb, h4⟩
      · next hnlt hne =>
        split
        · exact h
        · next hb =>
          refine wfFrom_cons.2 ⟨hl, ha, hb, wfFrom_cons.2 ⟨by omega, h2, h3, h4⟩⟩

/-- Writing one byte inside the array keeps the canonical form. -/
theorem wf_write {size a : Nat} {m : Memory} (b : Byte) (h : Memory.wf size m = true) (ha : a < size) :
    Memory.wf size (Memory.write m a b) = true := wfFrom_write b h (Nat.zero_le _) ha

/-! ## Read after write -/

/-- A write leaves every other byte alone. -/
theorem read_write_ne (m : Memory) {a c : Nat} (b : Byte) (h : c ≠ a) :
    Memory.read (Memory.write m a b) c = Memory.read m c := by
  induction m with
  | nil =>
    simp only [Memory.write]
    split
    · rfl
    · simp [Memory.read, Ne.symm h]
  | cons p m ih =>
    obtain ⟨k, v⟩ := p
    simp only [Memory.write]
    split
    · simp only [Memory.read, ih]
    · split
      · next he =>
        have hk : k ≠ c := by omega
        split
        · simp [Memory.read, hk]
        · simp [Memory.read, hk, Ne.symm h]
      · split
        · rfl
        · simp [Memory.read, Ne.symm h]

/-- A byte written is read back. -/
theorem read_write_self {size a : Nat} {m : Memory} (b : Byte) (h : Memory.wf size m = true) :
    Memory.read (Memory.write m a b) a = b := by
  have gen : ∀ lo, Memory.wfFrom size lo m = true → Memory.read (Memory.write m a b) a = b := by
    clear h
    induction m with
    | nil =>
      intro _ _
      by_cases hb : b = blankByte
      · subst hb; rfl
      · simp [Memory.write, hb, Memory.read]
    | cons p m ih =>
      intro lo h
      obtain ⟨k, v⟩ := p
      rw [wfFrom_cons] at h
      simp only [Memory.write]
      split
      · next hlt =>
        have hk : k ≠ a := by omega
        simp only [Memory.read, hk, if_false]
        exact ih _ h.2.2.2
      · split
        · next he =>
          subst he
          split
          · next hb => rw [hb]; exact read_below h.2.2.2 (by omega)
          · simp [Memory.read]
        · next hnlt hne =>
          split
          · next hb =>
            have hk : k ≠ a := hne
            simp only [Memory.read, hk, if_false]
            rw [hb]
            exact read_below h.2.2.2 (by omega)
          · simp [Memory.read]
  exact gen 0 h

theorem read_write {size a : Nat} {m : Memory} (b : Byte) (h : Memory.wf size m = true) (c : Nat) :
    Memory.read (Memory.write m a b) c = if c = a then b else Memory.read m c := by
  split
  · next he => subst he; exact read_write_self b h
  · next hne => exact read_write_ne m b hne

/-- A canonical array lists nothing at or past its size. -/
theorem read_past {size a : Nat} {m : Memory} (h : Memory.wf size m = true) (ha : size ≤ a) :
    Memory.read m a = blankByte := by
  have gen : ∀ lo, Memory.wfFrom size lo m = true → Memory.read m a = blankByte := by
    clear h
    induction m with
    | nil => intro _ _; rfl
    | cons p m ih =>
      intro lo h
      obtain ⟨k, v⟩ := p
      rw [wfFrom_cons] at h
      have hk : k ≠ a := by omega
      simp only [Memory.read, hk, if_false]
      exact ih _ h.2.2.2
  exact gen 0 h

/-- Equal arrays are equal data: the canonical form is determined by what it reads as. -/
theorem eq_of_read_eq {size : Nat} {m n : Memory} (hm : Memory.wf size m = true) (hn : Memory.wf size n = true)
    (h : ∀ a, Memory.read m a = Memory.read n a) : m = n := by
  have gen : ∀ (lo : Nat) (n : Memory), Memory.wfFrom size lo m = true → Memory.wfFrom size lo n = true →
      (∀ a, lo ≤ a → Memory.read m a = Memory.read n a) → m = n := by
    clear hm hn h
    induction m with
    | nil =>
      intro lo n _ hn h
      cases n with
      | nil => rfl
      | cons q n =>
        obtain ⟨k, v⟩ := q
        rw [wfFrom_cons] at hn
        have := h k hn.1
        simp [Memory.read] at this
        exact absurd this.symm hn.2.2.1
    | cons p m ih =>
      intro lo n hm hn h
      obtain ⟨k, v⟩ := p
      rw [wfFrom_cons] at hm
      cases n with
      | nil =>
        have := h k hm.1
        simp [Memory.read] at this
        exact absurd this hm.2.2.1
      | cons q n =>
        obtain ⟨k', v'⟩ := q
        rw [wfFrom_cons] at hn
        have hk : k = k' := by
          rcases Nat.lt_trichotomy k k' with hlt | he | hgt
          · have := h k hm.1
            have hb : Memory.read n k = blankByte := read_below hn.2.2.2 (by omega)
            simp [Memory.read, Nat.ne_of_gt hlt, hb] at this
            exact absurd this hm.2.2.1
          · exact he
          · have := h k' hn.1
            have hb : Memory.read m k' = blankByte := read_below hm.2.2.2 (by omega)
            simp [Memory.read, Nat.ne_of_gt hgt, hb] at this
            exact absurd this.symm hn.2.2.1
        subst hk
        have hv : v = v' := by simpa [Memory.read] using h k hm.1
        subst hv
        have hrest : m = n := ih (k + 1) n hm.2.2.2 hn.2.2.2 (fun a ha => by
          have := h a (by omega)
          have hne : k ≠ a := by omega
          simpa [Memory.read, hne] using this)
        rw [hrest]
  exact gen 0 n hm hn (fun a _ => h a)

/-! ## Wider accesses -/

theorem wf_writeLE {size i : Nat} {m : Memory} (n : Width) (v : Word) (h : Memory.wf size m = true)
    (hi : i + widthBytes n ≤ size) : Memory.wf size (writeLE m i n v) = true := by
  cases n <;> simp only [widthBytes] at hi <;> simp only [writeLE]
  · exact wf_write _ h (by omega)
  · exact wf_write _ (wf_write _ h (by omega)) (by omega)
  · exact wf_write _ (wf_write _ (wf_write _ (wf_write _ h (by omega)) (by omega)) (by omega)) (by omega)

/-- What a store leaves in the array, byte by byte (R53). -/
theorem read_writeLE {size i : Nat} {m : Memory} (n : Width) (v : Word) (h : Memory.wf size m = true)
    (hi : i + widthBytes n ≤ size) (j : Nat) :
    Memory.read (writeLE m i n v) j =
      if i ≤ j ∧ j < i + widthBytes n then byteOf v (j - i) else Memory.read m j := by
  cases n <;> simp only [widthBytes] at hi <;> simp only [writeLE]
  · rw [read_write _ h]
    by_cases e : j = i
    · subst e; simp [widthBytes]
    · rw [if_neg e, if_neg (by simp only [widthBytes]; omega)]
  · have h1 := wf_write (byteOf v 0) h (a := i) (by omega)
    rw [read_write _ h1, read_write _ h]
    by_cases e : j = i + 1
    · subst e; simp [widthBytes]
    · by_cases e' : j = i
      · subst e'; simp [widthBytes]
      · rw [if_neg e, if_neg e', if_neg (by simp only [widthBytes]; omega)]
  · have h1 := wf_write (byteOf v 0) h (a := i) (by omega)
    have h2 := wf_write (byteOf v 1) h1 (a := i + 1) (by omega)
    have h3 := wf_write (byteOf v 2) h2 (a := i + 2) (by omega)
    rw [read_write _ h3, read_write _ h2, read_write _ h1, read_write _ h]
    by_cases e3 : j = i + 3
    · subst e3; simp [widthBytes]
    · by_cases e2 : j = i + 2
      · subst e2; simp [widthBytes]
      · by_cases e1 : j = i + 1
        · subst e1; simp [widthBytes]
        · by_cases e0 : j = i
          · subst e0; simp [widthBytes]
          · rw [if_neg e3, if_neg e2, if_neg e1, if_neg e0, if_neg (by simp only [widthBytes]; omega)]

/-- Byte `j` of the word assembled from four bytes (R65). -/
theorem byteOf_wordOfBytes (b0 b1 b2 b3 : Byte) :
    byteOf (wordOfBytes b0 b1 b2 b3) 0 = b0 ∧ byteOf (wordOfBytes b0 b1 b2 b3) 1 = b1 ∧
      byteOf (wordOfBytes b0 b1 b2 b3) 2 = b2 ∧ byteOf (wordOfBytes b0 b1 b2 b3) 3 = b3 := by
  refine ⟨?_, ?_, ?_, ?_⟩ <;>
    (apply BitVec.eq_of_getLsbD_eq; intro k hk; simp only [byteOf, wordOfBytes, BitVec.getLsbD_extractLsb',
      BitVec.getLsbD_append, hk, decide_true, Bool.true_and])
  · simp [hk]
  · rw [if_neg (by omega), if_pos (by omega)]; congr 1; omega
  · rw [if_neg (by omega), if_neg (by omega), if_pos (by omega)]; congr 1; omega
  · rw [if_neg (by omega), if_neg (by omega), if_neg (by omega)]; congr 1; omega

/-- A word is made of its four bytes. -/
theorem wordOfBytes_byteOf (w : Word) : wordOfBytes (byteOf w 0) (byteOf w 1) (byteOf w 2) (byteOf w 3) = w := by
  apply BitVec.eq_of_getLsbD_eq
  intro k hk
  simp only [byteOf, wordOfBytes, BitVec.getLsbD_extractLsb', BitVec.getLsbD_append]
  by_cases h0 : k < 8
  · simp [h0]
  · by_cases h1 : k - 8 < 8
    · rw [if_neg h0, if_pos h1]; simp only [h1, decide_true, Bool.true_and]; congr 1; omega
    · by_cases h2 : k - 8 - 8 < 8
      · rw [if_neg h0, if_neg h1, if_pos h2]; simp only [h2, decide_true, Bool.true_and]; congr 1; omega
      · have h3 : k - 8 - 8 - 8 < 8 := by omega
        rw [if_neg h0, if_neg h1, if_neg h2]; simp only [h3, decide_true, Bool.true_and]; congr 1; omega

/-! ## An image laid out from an index up (70_reset_and_hazards.md R254) -/

theorem wfFrom_ofBytes {size : Nat} (l : List Byte) (i : Nat) (h : i + l.length ≤ size) :
    Memory.wfFrom size i (Memory.ofBytes l i) = true := by
  induction l generalizing i with
  | nil => rfl
  | cons b bs ih =>
    simp only [List.length_cons] at h
    have hr := ih (i + 1) (by omega)
    simp only [Memory.ofBytes]
    split
    · exact wfFrom_mono hr (by omega)
    · next hb => exact wfFrom_cons.2 ⟨Nat.le_refl i, by omega, hb, hr⟩

/-- The array a BIOS image makes is canonical. -/
theorem wf_ofBytes {size : Nat} (l : List Byte) (h : l.length ≤ size) :
    Memory.wf size (Memory.ofBytes l 0) = true := wfFrom_ofBytes l 0 (by omega)

/-- Byte `k` of it is byte `k` of the image. -/
theorem read_ofBytes (l : List Byte) (i k : Nat) :
    Memory.read (Memory.ofBytes l i) k = if i ≤ k then l.getD (k - i) blankByte else blankByte := by
  induction l generalizing i with
  | nil => simp [Memory.ofBytes, Memory.read]
  | cons b bs ih =>
    simp only [Memory.ofBytes]
    by_cases e : k = i
    · subst e
      rw [if_pos (Nat.le_refl k), Nat.sub_self, List.getD_cons_zero]
      split
      · next h => rw [ih, if_neg (by omega), h]
      · simp [Memory.read]
    · have hr : Memory.read (if b = blankByte then Memory.ofBytes bs (i + 1)
          else (i, b) :: Memory.ofBytes bs (i + 1)) k = Memory.read (Memory.ofBytes bs (i + 1)) k := by
        split
        · rfl
        · simp only [Memory.read, if_neg (Ne.symm e)]
      rw [hr, ih]
      by_cases hk : i ≤ k
      · rw [if_pos (by omega), if_pos hk, show k - i = (k - (i + 1)) + 1 by omega, List.getD_cons_succ]
      · rw [if_neg (by omega), if_neg hk]

end Sys2Proof.Machine
end

