-- ==== Sys2Proof/Laws/Bus.lean ====
section
/-! SUPPORT. Everything a bus access can do, said once per primitive (20_memory.md R52, R53). -/

namespace Sys2Proof.Machine

/-! ## Alignment and local indexes -/

theorem aligned_iff (addr : Word) (n : Width) : aligned addr n = true ↔ addr.toNat % widthBytes n = 0 := by
  simp [aligned]

/-- A byte access is always aligned (R54). -/
@[simp] theorem aligned_byte (addr : Word) : aligned addr .byte = true := by
  simp [aligned_iff, widthBytes, Nat.mod_one]

/-- An aligned access lies inside its array: it never straddles the array's end. -/
theorem localIndex_bound (a : ArrayId) {addr : Word} {n : Width} (h : aligned addr n = true) :
    localIndex a addr + widthBytes n ≤ arraySize a := by
  rw [aligned_iff] at h
  cases a <;> cases n <;> simp only [localIndex, arraySize, widthBytes] at * <;> omega

theorem localIndex_lt (a : ArrayId) (addr : Word) : localIndex a addr < arraySize a := by
  cases a <;> simp only [localIndex, arraySize] <;> omega

/-- The local index is the address masked to the array's size, as R52 writes it. -/
theorem localIndex_eq_and (addr : Word) :
    localIndex .ram addr = (addr &&& 0x1FFFFF).toNat ∧ localIndex .rom addr = (addr &&& 0x7FFFF).toNat ∧
      localIndex .scratch addr = (addr &&& 0x3FF).toNat := by
  refine ⟨?_, ?_, ?_⟩ <;> rw [BitVec.toNat_and] <;> simp only [localIndex, arraySize]
  · exact (Nat.and_two_pow_sub_one_eq_mod addr.toNat 21).symm
  · exact (Nat.and_two_pow_sub_one_eq_mod addr.toNat 19).symm
  · exact (Nat.and_two_pow_sub_one_eq_mod addr.toNat 10).symm

theorem alignedAddr_toNat (ea : Word) : (alignedAddr ea).toNat = ea.toNat - ea.toNat % 4 := by
  have h : alignedAddr ea = (ea.extractLsb' 2 30 ++ (0 : BitVec 2) : BitVec 32) := by
    apply BitVec.eq_of_getLsbD_eq
    intro k hk
    have hc : (0xFFFFFFFC : Word).getLsbD k = decide (2 ≤ k) := by
      revert k; decide
    simp only [alignedAddr, BitVec.getLsbD_and, hc, BitVec.getLsbD_append, BitVec.getLsbD_extractLsb']
    by_cases h2 : k < 2
    · simp [h2]
    · rw [if_neg h2]
      have : k - 2 < 30 := by omega
      simp only [this, decide_true, Bool.true_and, show 2 ≤ k from by omega, Bool.and_true]
      congr 1; omega
  rw [h, BitVec.toNat_append]
  simp only [BitVec.extractLsb'_toNat]
  rw [Nat.shiftLeft_eq, Nat.shiftRight_eq_div_pow]
  have := ea.isLt
  simp
  omega

@[simp] theorem aligned_alignedAddr (ea : Word) : aligned (alignedAddr ea) .word = true := by
  rw [aligned_iff, alignedAddr_toNat]
  simp only [widthBytes]
  omega

/-! ## Classification (R56) -/

/-- In a table of disjoint rows every address of a row is routed to that row's backend. -/
theorem classify_of_mem {rs : List Region} {addr : Word} {r : Region} (hm : r ∈ rs) (hd : regionsDisjoint rs = true)
    (hx : regionMatches addr r = true) : classify rs addr = some r.backend := by
  induction rs with
  | nil => cases hm
  | cons q rs ih =>
    simp only [regionsDisjoint, Bool.and_eq_true, List.all_eq_true] at hd
    unfold classify
    rw [List.find?_cons]
    rcases List.mem_cons.1 hm with rfl | hm'
    · rw [hx]; rfl
    · have ha := hd.1 r hm'
      have hq : regionMatches addr q = false := by
        simp only [regionsApart, Bool.or_eq_true, decide_eq_true_eq, regionMatches, Bool.and_eq_true] at ha hx
        rw [← Bool.not_eq_true]
        simp only [regionMatches, Bool.and_eq_true, decide_eq_true_eq]
        omega
      rw [hq]
      exact ih hm' hd.2

/-! ## MemRead (R52) -/

theorem memRead_misaligned {kind : AccessKind} {addr : Word} {n : Width} {s : State}
    (h : aligned addr n = false) : memRead kind addr n s = .value 0 (raiseExc .adEL s) := by
  simp [memRead, h]

theorem memRead_unmapped {kind : AccessKind} {addr : Word} {n : Width} {s : State} (h : aligned addr n = true)
    (hc : classify s.params.regions addr = none) :
    memRead kind addr n s = .halted (s.setHalted (.unmappedAddress addr kind)) := by
  simp [memRead, h, hc]

theorem memRead_array {kind : AccessKind} {addr : Word} {n : Width} {s : State} {a : ArrayId}
    (h : aligned addr n = true) (hc : classify s.params.regions addr = some (.array a)) :
    memRead kind addr n s = .value (readLE (s.array a) (localIndex a addr) n) s := by
  simp [memRead, h, hc]

theorem memRead_dev {kind : AccessKind} {addr : Word} {n : Width} {s : State} {d : Dev}
    (h : aligned addr n = true) (hc : classify s.params.regions addr = some (.dev d)) :
    memRead kind addr n s = devLoad d n addr s := by
  simp [memRead, h, hc]

/-- A device load answers a value and changes nothing but the record of the call and the draw counter (R62). -/
theorem devLoad_cases (d : Dev) (n : Width) (addr : Word) (s : State) :
    devLoad d n addr s = .value 0 (s.logDevCall (.load d n addr)) ∨
      devLoad d n addr s =
        .value (truncTo n (Config.devLoad s.draws d n addr)) (s.logDevCall (.load d n addr)).countDraw := by
  unfold devLoad
  split <;> simp

/-- The state a read leaves, whichever way it ends. -/
def ReadResult.state : ReadResult → State
  | .value _ t => t
  | .halted t => t

/-- A read never touches the registers, hi and lo, the arrays, the parameters or `current_pc`. -/
theorem memRead_frame (kind : AccessKind) (addr : Word) (n : Width) (s : State) :
    (memRead kind addr n s).state.regs = s.regs ∧ (memRead kind addr n s).state.hi = s.hi ∧
      (memRead kind addr n s).state.lo = s.lo ∧ (memRead kind addr n s).state.ram = s.ram ∧
      (memRead kind addr n s).state.rom = s.rom ∧ (memRead kind addr n s).state.scratch = s.scratch ∧
      (memRead kind addr n s).state.params = s.params ∧ (memRead kind addr n s).state.currentPc = s.currentPc := by
  unfold memRead
  split
  · split
    · simp [ReadResult.state]
    · simp [ReadResult.state]
    · next d _ => rcases devLoad_cases d n addr s with h | h <;> rw [h] <;> simp [ReadResult.state]
  · simp [ReadResult.state]

/-- An aligned read leaves the program counters and the coprocessor-0 bank alone. -/
theorem memRead_frame_aligned {kind : AccessKind} {addr : Word} {n : Width} {s : State} (h : aligned addr n = true) :
    (memRead kind addr n s).state.pc = s.pc ∧ (memRead kind addr n s).state.nextPc = s.nextPc ∧
      (memRead kind addr n s).state.cp0 = s.cp0 := by
  unfold memRead
  rw [if_pos h]
  split
  · simp [ReadResult.state]
  · simp [ReadResult.state]
  · next d _ => rcases devLoad_cases d n addr s with h | h <;> rw [h] <;> simp [ReadResult.state]

/-! ## MemWrite (R53) -/

theorem memWrite_misaligned {addr : Word} {n : Width} {v : Word} {s : State} (h : aligned addr n = false) :
    memWrite addr n v s = raiseExc .adES s := by
  simp [memWrite, h]

theorem memWrite_unmapped {addr : Word} {n : Width} {v : Word} {s : State} (h : aligned addr n = true)
    (hc : classify s.params.regions addr = none) :
    memWrite addr n v s = s.setHalted (.unmappedAddress addr .store) := by
  simp [memWrite, h, hc]

theorem memWrite_array {addr : Word} {n : Width} {v : Word} {s : State} {a : ArrayId} (h : aligned addr n = true)
    (hc : classify s.params.regions addr = some (.array a)) : memWrite addr n v s = arrayStore a addr n v s := by
  simp [memWrite, h, hc]

theorem memWrite_dev {addr : Word} {n : Width} {v : Word} {s : State} {d : Dev} (h : aligned addr n = true)
    (hc : classify s.params.regions addr = some (.dev d)) :
    memWrite addr n v s = s.logDevCall (.store d n addr (truncTo n v)) := by
  simp [memWrite, h, hc, devStore]

/-- A store to an array changes nothing, or replaces the bytes of that array (R53 stage 3). -/
theorem arrayStore_cases (a : ArrayId) (addr : Word) (n : Width) (v : Word) (s : State) :
    arrayStore a addr n v s = s ∨
      (a ≠ .rom ∧ arrayStore a addr n v s = s.setArray a (writeLE (s.array a) (localIndex a addr) n v)) := by
  cases a
  · simp only [arrayStore]
    split
    · exact .inl rfl
    · exact .inr ⟨by simp, rfl⟩
  · exact .inl rfl
  · exact .inr ⟨by simp, rfl⟩

/-- A write never touches the registers, hi and lo, ROM, the parameters, the draw counter or `current_pc`. -/
theorem memWrite_frame (addr : Word) (n : Width) (v : Word) (s : State) :
    (memWrite addr n v s).regs = s.regs ∧ (memWrite addr n v s).hi = s.hi ∧ (memWrite addr n v s).lo = s.lo ∧
      (memWrite addr n v s).rom = s.rom ∧ (memWrite addr n v s).params = s.params ∧
      (memWrite addr n v s).draws = s.draws ∧ (memWrite addr n v s).currentPc = s.currentPc := by
  unfold memWrite
  split
  · split
    · simp
    · next a _ =>
      rcases arrayStore_cases a addr n v s with h | ⟨hr, h⟩ <;> rw [h]
      · simp
      · cases a <;> simp_all [State.setArray]
    · simp [devStore]
  · simp

/-- An aligned write leaves the program counters and the coprocessor-0 bank alone. -/
theorem memWrite_frame_aligned {addr : Word} {n : Width} {v : Word} {s : State} (h : aligned addr n = true) :
    (memWrite addr n v s).pc = s.pc ∧ (memWrite addr n v s).nextPc = s.nextPc ∧
      (memWrite addr n v s).cp0 = s.cp0 := by
  unfold memWrite
  rw [if_pos h]
  split
  · simp
  · next a _ => rcases arrayStore_cases a addr n v s with h | ⟨_, h⟩ <;> rw [h] <;> simp
  · simp [devStore]

/-- Replacing one array by a canonical one keeps all three canonical. -/
theorem arraysWf_setArray {s : State} {a : ArrayId} {m : Memory} (h : s.arraysWf = true)
    (hm : Memory.wf (arraySize a) m = true) : (s.setArray a m).arraysWf = true := by
  simp only [State.arraysWf, Bool.and_eq_true] at h ⊢
  cases a <;> simp_all [State.setArray]

theorem wf_array {s : State} (h : s.arraysWf = true) (a : ArrayId) : Memory.wf (arraySize a) (s.array a) = true := by
  simp only [State.arraysWf, Bool.and_eq_true] at h
  cases a <;> simp_all [State.array]

/-- Every store keeps the canonical form. -/
theorem arraysWf_memWrite {s : State} (addr : Word) (n : Width) (v : Word) (h : s.arraysWf = true) :
    (memWrite addr n v s).arraysWf = true := by
  unfold memWrite
  split
  · next ha =>
    split
    · exact h
    · next a _ =>
      rcases arrayStore_cases a addr n v s with e | ⟨_, e⟩ <;> rw [e]
      · exact h
      · exact arraysWf_setArray h (wf_writeLE n v (wf_array h a) (localIndex_bound a ha))
    · exact h
  · exact h

/-- What an aligned store that reaches an array leaves in every cell of every array. -/
theorem cell_store {s : State} {a : ArrayId} {addr : Word} {n : Width} (v : Word) (hw : s.arraysWf = true)
    (h : aligned addr n = true) (b : ArrayId) (j : Nat) :
    (s.setArray a (writeLE (s.array a) (localIndex a addr) n v)).cell b j =
      if b = a ∧ localIndex a addr ≤ j ∧ j < localIndex a addr + widthBytes n then byteOf v (j - localIndex a addr)
      else s.cell b j := by
  unfold State.cell
  rw [array_setArray]
  by_cases hb : b = a
  · subst hb
    rw [if_pos rfl, read_writeLE n v (wf_array hw b) (localIndex_bound b h)]
    simp
  · simp [hb]

/-- Reading back a value just stored, at the same array index and width (R59, R65). -/
theorem readLE_writeLE {size i : Nat} {m : Memory} (n : Width) (v : Word) (h : Memory.wf size m = true)
    (hi : i + widthBytes n ≤ size) : readLE (writeLE m i n v) i n = truncTo n v := by
  have hr := read_writeLE n v h hi
  cases n <;> simp only [readLE, truncTo]
  · rw [hr, if_pos (by simp only [widthBytes]; omega), Nat.sub_self]
    congr 1
  · rw [hr, hr, if_pos (by simp only [widthBytes]; omega), if_pos (by simp only [widthBytes]; omega), Nat.sub_self,
      Nat.add_sub_cancel_left]
    congr 1
    apply BitVec.eq_of_getLsbD_eq
    intro k hk
    simp only [byteOf, BitVec.getLsbD_append, BitVec.getLsbD_extractLsb', BitVec.getLsbD_setWidth]
    by_cases h8 : k < 8
    · simp [h8, show k < 16 by omega]
    · have : k - 8 < 8 := by omega
      rw [if_neg h8]
      simp only [this, decide_true, Bool.true_and, show k < 16 by omega]
      congr 1; omega
  · rw [hr, hr, hr, hr]
    rw [if_pos (by simp only [widthBytes]; omega), if_pos (by simp only [widthBytes]; omega),
      if_pos (by simp only [widthBytes]; omega), if_pos (by simp only [widthBytes]; omega)]
    simp only [Nat.add_sub_cancel_left, Nat.sub_self]
    exact wordOfBytes_byteOf v

end Sys2Proof.Machine
end

