-- ==== Sys2Proof/Laws/Decode.lean ====
section
/-! SUPPORT. Reading back the fields of an encoded word (30_encoding.md R91), once per format. -/

namespace Sys2Proof

/-- Cutting the lower part off a concatenation. -/
theorem extractLsb'_append_ge {n m s l : Nat} (x : BitVec n) (y : BitVec m) (h : m ≤ s) :
    (x ++ y).extractLsb' s l = x.extractLsb' (s - m) l := by
  apply BitVec.eq_of_getLsbD_eq
  intro k hk
  simp only [BitVec.getLsbD_extractLsb', BitVec.getLsbD_append, hk, decide_true, Bool.true_and]
  rw [if_neg (by omega)]
  congr 1; omega

/-- Cutting inside the lower part of a concatenation. -/
theorem extractLsb'_append_lt {n m s l : Nat} (x : BitVec n) (y : BitVec m) (h : s + l ≤ m) :
    (x ++ y).extractLsb' s l = y.extractLsb' s l := by
  apply BitVec.eq_of_getLsbD_eq
  intro k hk
  simp only [BitVec.getLsbD_extractLsb', BitVec.getLsbD_append, hk, decide_true, Bool.true_and]
  rw [if_pos (by omega)]

theorem extractLsb'_all {n : Nat} (x : BitVec n) : x.extractLsb' 0 n = x := by
  apply BitVec.eq_of_getLsbD_eq
  intro k hk
  simp [hk]

section R
variable (op : BitVec 6) (rs rt rd : Reg) (sh : BitVec 5) (f : BitVec 6)

theorem op_encR : fieldOp (encR op rs rt rd sh f) = op := by
  simp only [fieldOp, encR]
  rw [extractLsb'_append_ge _ _ (by omega), extractLsb'_append_ge _ _ (by omega),
    extractLsb'_append_ge _ _ (by omega), extractLsb'_append_ge _ _ (by omega), extractLsb'_append_ge _ _ (by omega)]
  exact extractLsb'_all op

theorem rsBits_encR : (encR op rs rt rd sh f).extractLsb' 21 5 = BitVec.ofFin rs := by
  simp only [encR]
  rw [extractLsb'_append_ge _ _ (by omega), extractLsb'_append_ge _ _ (by omega),
    extractLsb'_append_ge _ _ (by omega), extractLsb'_append_ge _ _ (by omega), extractLsb'_append_lt _ _ (by omega)]
  exact extractLsb'_all _

theorem rtBits_encR : (encR op rs rt rd sh f).extractLsb' 16 5 = BitVec.ofFin rt := by
  simp only [encR]
  rw [extractLsb'_append_ge _ _ (by omega), extractLsb'_append_ge _ _ (by omega),
    extractLsb'_append_ge _ _ (by omega), extractLsb'_append_lt _ _ (by omega)]
  exact extractLsb'_all _

theorem rs_encR : fieldRs (encR op rs rt rd sh f) = rs := by
  simp only [fieldRs, rsBits_encR]

theorem rt_encR : fieldRt (encR op rs rt rd sh f) = rt := by
  simp only [fieldRt, rtBits_encR]

theorem rd_encR : fieldRd (encR op rs rt rd sh f) = rd := by
  simp only [fieldRd, encR]
  rw [extractLsb'_append_ge _ _ (by omega), extractLsb'_append_ge _ _ (by omega),
    extractLsb'_append_lt _ _ (by omega), extractLsb'_all]

theorem shamt_encR : fieldShamt (encR op rs rt rd sh f) = sh := by
  simp only [fieldShamt, encR]
  rw [extractLsb'_append_ge _ _ (by omega), extractLsb'_append_lt _ _ (by omega)]
  exact extractLsb'_all _

theorem funct_encR : fieldFunct (encR op rs rt rd sh f) = f := by
  simp only [fieldFunct, encR]
  rw [extractLsb'_append_lt _ _ (by omega)]
  exact extractLsb'_all _

end R

section I
variable (op : BitVec 6) (rs rt : Reg) (imm : BitVec 16)

theorem op_encI : fieldOp (encI op rs rt imm) = op := by
  simp only [fieldOp, encI]
  rw [extractLsb'_append_ge _ _ (by omega), extractLsb'_append_ge _ _ (by omega), extractLsb'_append_ge _ _ (by omega)]
  exact extractLsb'_all op

theorem rs_encI : fieldRs (encI op rs rt imm) = rs := by
  simp only [fieldRs, encI]
  rw [extractLsb'_append_ge _ _ (by omega), extractLsb'_append_ge _ _ (by omega),
    extractLsb'_append_lt _ _ (by omega), extractLsb'_all]

theorem rtBits_encI : (encI op rs rt imm).extractLsb' 16 5 = BitVec.ofFin rt := by
  simp only [encI]
  rw [extractLsb'_append_ge _ _ (by omega), extractLsb'_append_lt _ _ (by omega)]
  exact extractLsb'_all _

theorem rt_encI : fieldRt (encI op rs rt imm) = rt := by
  simp only [fieldRt, rtBits_encI]

theorem imm_encI : fieldImm (encI op rs rt imm) = imm := by
  simp only [fieldImm, encI]
  rw [extractLsb'_append_lt _ _ (by omega)]
  exact extractLsb'_all _

end I

theorem op_encJ (op : BitVec 6) (t : BitVec 26) : fieldOp (encJ op t) = op := by
  simp only [fieldOp, encJ]
  rw [extractLsb'_append_ge _ _ (by omega)]
  exact extractLsb'_all op

theorem target_encJ (op : BitVec 6) (t : BitVec 26) : fieldTarget (encJ op t) = t := by
  simp only [fieldTarget, encJ]
  rw [extractLsb'_append_lt _ _ (by omega)]
  exact extractLsb'_all _

end Sys2Proof
end

