-- ==== Sys2Proof/Laws/PerInstr.lean ====
section
/-! SUPPORT. Facts proved once per instruction. Family EncodedInRow: the word of an instruction lies in the row its
mnemonic has in the opcode table (30_encoding.md R96). -/

namespace Sys2Proof

/-- Masking an R-format word to `op` and `funct` (the mask of R96 rows 1 to 24). -/
theorem encR_mask_special (op : BitVec 6) (rs rt rd : Reg) (sh : BitVec 5) (f : BitVec 6) :
    encR op rs rt rd sh f &&& 0xFC00003F = encR op 0 0 0 0 f := by
  apply BitVec.eq_of_getLsbD_eq
  intro k hk
  have hc : (0xFC00003F : Word).getLsbD k = (decide (k < 6) || decide (26 ≤ k)) := by revert k; decide
  simp only [BitVec.getLsbD_and, hc, encR, BitVec.getLsbD_append]
  by_cases h1 : k < 6
  · simp [h1]
  · by_cases h2 : 26 ≤ k
    · simp only [h2, decide_true, Bool.or_true, Bool.and_true]
      repeat rw [if_neg (by omega)]
    · simp [h1, h2]
      intros; omega

/-- Masking an R-format word to `op` and `rs` (the mask of R96 rows 43, 44). -/
theorem encR_mask_cop0 (op : BitVec 6) (rs rt rd : Reg) (sh : BitVec 5) (f : BitVec 6) :
    encR op rs rt rd sh f &&& 0xFFE00000 = encR op rs 0 0 0 0 := by
  apply BitVec.eq_of_getLsbD_eq
  intro k hk
  have hc : (0xFFE00000 : Word).getLsbD k = decide (21 ≤ k) := by revert k; decide
  simp only [BitVec.getLsbD_and, hc, encR, BitVec.getLsbD_append]
  by_cases h2 : 21 ≤ k
  · simp only [h2, decide_true, Bool.and_true]
    rw [if_neg (show ¬ k < 6 by omega), if_neg (show ¬ k - 6 < 5 by omega), if_neg (show ¬ k - 6 - 5 < 5 by omega),
      if_neg (show ¬ k - 6 - 5 - 5 < 5 by omega), if_neg (show ¬ k < 6 by omega), if_neg (show ¬ k - 6 < 5 by omega),
      if_neg (show ¬ k - 6 - 5 < 5 by omega), if_neg (show ¬ k - 6 - 5 - 5 < 5 by omega)]
  · simp [h2]
    intros; omega

/-- Masking an I-format word to `op` (the mask of most I-format rows of R96). -/
theorem encI_mask_op (op : BitVec 6) (rs rt : Reg) (imm : BitVec 16) :
    encI op rs rt imm &&& 0xFC000000 = encI op 0 0 0 := by
  apply BitVec.eq_of_getLsbD_eq
  intro k hk
  have hc : (0xFC000000 : Word).getLsbD k = decide (26 ≤ k) := by revert k; decide
  simp only [BitVec.getLsbD_and, hc, encI, BitVec.getLsbD_append]
  by_cases h2 : 26 ≤ k
  · simp only [h2, decide_true, Bool.and_true]
    repeat rw [if_neg (by omega)]
  · simp [h2]
    intros; omega

/-- Masking an I-format word to `op` and `rt` (the mask of R96 rows 25 to 28). -/
theorem encI_mask_region1 (op : BitVec 6) (rs rt : Reg) (imm : BitVec 16) :
    encI op rs rt imm &&& 0xFC1F0000 = encI op 0 rt 0 := by
  apply BitVec.eq_of_getLsbD_eq
  intro k hk
  have hc : (0xFC1F0000 : Word).getLsbD k = (decide (26 ≤ k) || (decide (16 ≤ k) && decide (k < 21))) := by
    revert k; decide
  simp only [BitVec.getLsbD_and, hc, encI, BitVec.getLsbD_append]
  by_cases h0 : k < 16
  · simp [h0]; intros; omega
  · by_cases h1 : k - 16 < 5
    · simp [h0, h1, show 16 ≤ k by omega, show k < 21 by omega]
    · by_cases h2 : k - 16 - 5 < 5
      · simp [h0, h1, h2, show ¬ k < 21 by omega, show ¬ 26 ≤ k by omega]
      · simp [h0, h1, h2, show 26 ≤ k by omega]

/-- Masking a J-format word to `op`. -/
theorem encJ_mask_op (op : BitVec 6) (t : BitVec 26) : encJ op t &&& 0xFC000000 = encJ op 0 := by
  apply BitVec.eq_of_getLsbD_eq
  intro k hk
  have hc : (0xFC000000 : Word).getLsbD k = decide (26 ≤ k) := by revert k; decide
  simp only [BitVec.getLsbD_and, hc, encJ, BitVec.getLsbD_append]
  by_cases h2 : 26 ≤ k
  · simp only [h2, decide_true, Bool.and_true]
    rw [if_neg (by omega), if_neg (by omega)]
  · simp [h2]

/-- The family's fact: the instruction's row carries its mnemonic, and its word matches the row. -/
def Laws.EncodedInRow.Statement (i : Instr) : Prop :=
  i.row.mnemonic = i.mnemonic ∧ encode i &&& i.row.mask = i.row.pattern

end Sys2Proof

theorem Sys2Proof.Laws.EncodedInRow.sll (rd : Sys2Proof.Reg) (rt : Sys2Proof.Reg) (sh : BitVec 5) :
    Sys2Proof.Laws.EncodedInRow.Statement (.sll rd rt sh) :=
  ⟨rfl, Sys2Proof.encR_mask_special ..⟩
theorem Sys2Proof.Laws.EncodedInRow.srl (rd : Sys2Proof.Reg) (rt : Sys2Proof.Reg) (sh : BitVec 5) :
    Sys2Proof.Laws.EncodedInRow.Statement (.srl rd rt sh) :=
  ⟨rfl, Sys2Proof.encR_mask_special ..⟩
theorem Sys2Proof.Laws.EncodedInRow.sra (rd : Sys2Proof.Reg) (rt : Sys2Proof.Reg) (sh : BitVec 5) :
    Sys2Proof.Laws.EncodedInRow.Statement (.sra rd rt sh) :=
  ⟨rfl, Sys2Proof.encR_mask_special ..⟩
theorem Sys2Proof.Laws.EncodedInRow.sllv (rd : Sys2Proof.Reg) (rt : Sys2Proof.Reg) (rs : Sys2Proof.Reg) :
    Sys2Proof.Laws.EncodedInRow.Statement (.sllv rd rt rs) :=
  ⟨rfl, Sys2Proof.encR_mask_special ..⟩
theorem Sys2Proof.Laws.EncodedInRow.srlv (rd : Sys2Proof.Reg) (rt : Sys2Proof.Reg) (rs : Sys2Proof.Reg) :
    Sys2Proof.Laws.EncodedInRow.Statement (.srlv rd rt rs) :=
  ⟨rfl, Sys2Proof.encR_mask_special ..⟩
theorem Sys2Proof.Laws.EncodedInRow.srav (rd : Sys2Proof.Reg) (rt : Sys2Proof.Reg) (rs : Sys2Proof.Reg) :
    Sys2Proof.Laws.EncodedInRow.Statement (.srav rd rt rs) :=
  ⟨rfl, Sys2Proof.encR_mask_special ..⟩
theorem Sys2Proof.Laws.EncodedInRow.jr (rs : Sys2Proof.Reg) :
    Sys2Proof.Laws.EncodedInRow.Statement (.jr rs) :=
  ⟨rfl, Sys2Proof.encR_mask_special ..⟩
theorem Sys2Proof.Laws.EncodedInRow.jalr (rd : Sys2Proof.Reg) (rs : Sys2Proof.Reg) :
    Sys2Proof.Laws.EncodedInRow.Statement (.jalr rd rs) :=
  ⟨rfl, Sys2Proof.encR_mask_special ..⟩
theorem Sys2Proof.Laws.EncodedInRow.syscall :
    Sys2Proof.Laws.EncodedInRow.Statement (.syscall) :=
  ⟨rfl, Sys2Proof.encR_mask_special ..⟩
theorem Sys2Proof.Laws.EncodedInRow.mfhi (rd : Sys2Proof.Reg) :
    Sys2Proof.Laws.EncodedInRow.Statement (.mfhi rd) :=
  ⟨rfl, Sys2Proof.encR_mask_special ..⟩
theorem Sys2Proof.Laws.EncodedInRow.mflo (rd : Sys2Proof.Reg) :
    Sys2Proof.Laws.EncodedInRow.Statement (.mflo rd) :=
  ⟨rfl, Sys2Proof.encR_mask_special ..⟩
theorem Sys2Proof.Laws.EncodedInRow.mult (rs : Sys2Proof.Reg) (rt : Sys2Proof.Reg) :
    Sys2Proof.Laws.EncodedInRow.Statement (.mult rs rt) :=
  ⟨rfl, Sys2Proof.encR_mask_special ..⟩
theorem Sys2Proof.Laws.EncodedInRow.multu (rs : Sys2Proof.Reg) (rt : Sys2Proof.Reg) :
    Sys2Proof.Laws.EncodedInRow.Statement (.multu rs rt) :=
  ⟨rfl, Sys2Proof.encR_mask_special ..⟩
theorem Sys2Proof.Laws.EncodedInRow.div (rs : Sys2Proof.Reg) (rt : Sys2Proof.Reg) :
    Sys2Proof.Laws.EncodedInRow.Statement (.div rs rt) :=
  ⟨rfl, Sys2Proof.encR_mask_special ..⟩
theorem Sys2Proof.Laws.EncodedInRow.divu (rs : Sys2Proof.Reg) (rt : Sys2Proof.Reg) :
    Sys2Proof.Laws.EncodedInRow.Statement (.divu rs rt) :=
  ⟨rfl, Sys2Proof.encR_mask_special ..⟩
theorem Sys2Proof.Laws.EncodedInRow.add (rd : Sys2Proof.Reg) (rs : Sys2Proof.Reg) (rt : Sys2Proof.Reg) :
    Sys2Proof.Laws.EncodedInRow.Statement (.add rd rs rt) :=
  ⟨rfl, Sys2Proof.encR_mask_special ..⟩
theorem Sys2Proof.Laws.EncodedInRow.addu (rd : Sys2Proof.Reg) (rs : Sys2Proof.Reg) (rt : Sys2Proof.Reg) :
    Sys2Proof.Laws.EncodedInRow.Statement (.addu rd rs rt) :=
  ⟨rfl, Sys2Proof.encR_mask_special ..⟩
theorem Sys2Proof.Laws.EncodedInRow.subu (rd : Sys2Proof.Reg) (rs : Sys2Proof.Reg) (rt : Sys2Proof.Reg) :
    Sys2Proof.Laws.EncodedInRow.Statement (.subu rd rs rt) :=
  ⟨rfl, Sys2Proof.encR_mask_special ..⟩
theorem Sys2Proof.Laws.EncodedInRow.and (rd : Sys2Proof.Reg) (rs : Sys2Proof.Reg) (rt : Sys2Proof.Reg) :
    Sys2Proof.Laws.EncodedInRow.Statement (.and rd rs rt) :=
  ⟨rfl, Sys2Proof.encR_mask_special ..⟩
theorem Sys2Proof.Laws.EncodedInRow.or (rd : Sys2Proof.Reg) (rs : Sys2Proof.Reg) (rt : Sys2Proof.Reg) :
    Sys2Proof.Laws.EncodedInRow.Statement (.or rd rs rt) :=
  ⟨rfl, Sys2Proof.encR_mask_special ..⟩
theorem Sys2Proof.Laws.EncodedInRow.xor (rd : Sys2Proof.Reg) (rs : Sys2Proof.Reg) (rt : Sys2Proof.Reg) :
    Sys2Proof.Laws.EncodedInRow.Statement (.xor rd rs rt) :=
  ⟨rfl, Sys2Proof.encR_mask_special ..⟩
theorem Sys2Proof.Laws.EncodedInRow.nor (rd : Sys2Proof.Reg) (rs : Sys2Proof.Reg) (rt : Sys2Proof.Reg) :
    Sys2Proof.Laws.EncodedInRow.Statement (.nor rd rs rt) :=
  ⟨rfl, Sys2Proof.encR_mask_special ..⟩
theorem Sys2Proof.Laws.EncodedInRow.slt (rd : Sys2Proof.Reg) (rs : Sys2Proof.Reg) (rt : Sys2Proof.Reg) :
    Sys2Proof.Laws.EncodedInRow.Statement (.slt rd rs rt) :=
  ⟨rfl, Sys2Proof.encR_mask_special ..⟩
theorem Sys2Proof.Laws.EncodedInRow.sltu (rd : Sys2Proof.Reg) (rs : Sys2Proof.Reg) (rt : Sys2Proof.Reg) :
    Sys2Proof.Laws.EncodedInRow.Statement (.sltu rd rs rt) :=
  ⟨rfl, Sys2Proof.encR_mask_special ..⟩
theorem Sys2Proof.Laws.EncodedInRow.bltz (rs : Sys2Proof.Reg) (imm : BitVec 16) :
    Sys2Proof.Laws.EncodedInRow.Statement (.bltz rs imm) :=
  ⟨rfl, Sys2Proof.encI_mask_region1 ..⟩
theorem Sys2Proof.Laws.EncodedInRow.bgez (rs : Sys2Proof.Reg) (imm : BitVec 16) :
    Sys2Proof.Laws.EncodedInRow.Statement (.bgez rs imm) :=
  ⟨rfl, Sys2Proof.encI_mask_region1 ..⟩
theorem Sys2Proof.Laws.EncodedInRow.bltzal (rs : Sys2Proof.Reg) (imm : BitVec 16) :
    Sys2Proof.Laws.EncodedInRow.Statement (.bltzal rs imm) :=
  ⟨rfl, Sys2Proof.encI_mask_region1 ..⟩
theorem Sys2Proof.Laws.EncodedInRow.bgezal (rs : Sys2Proof.Reg) (imm : BitVec 16) :
    Sys2Proof.Laws.EncodedInRow.Statement (.bgezal rs imm) :=
  ⟨rfl, Sys2Proof.encI_mask_region1 ..⟩
theorem Sys2Proof.Laws.EncodedInRow.j (target : BitVec 26) :
    Sys2Proof.Laws.EncodedInRow.Statement (.j target) :=
  ⟨rfl, Sys2Proof.encJ_mask_op ..⟩
theorem Sys2Proof.Laws.EncodedInRow.jal (target : BitVec 26) :
    Sys2Proof.Laws.EncodedInRow.Statement (.jal target) :=
  ⟨rfl, Sys2Proof.encJ_mask_op ..⟩
theorem Sys2Proof.Laws.EncodedInRow.beq (rs : Sys2Proof.Reg) (rt : Sys2Proof.Reg) (imm : BitVec 16) :
    Sys2Proof.Laws.EncodedInRow.Statement (.beq rs rt imm) :=
  ⟨rfl, Sys2Proof.encI_mask_op ..⟩
theorem Sys2Proof.Laws.EncodedInRow.bne (rs : Sys2Proof.Reg) (rt : Sys2Proof.Reg) (imm : BitVec 16) :
    Sys2Proof.Laws.EncodedInRow.Statement (.bne rs rt imm) :=
  ⟨rfl, Sys2Proof.encI_mask_op ..⟩
theorem Sys2Proof.Laws.EncodedInRow.blez (rs : Sys2Proof.Reg) (imm : BitVec 16) :
    Sys2Proof.Laws.EncodedInRow.Statement (.blez rs imm) :=
  ⟨rfl, Sys2Proof.encI_mask_op ..⟩
theorem Sys2Proof.Laws.EncodedInRow.bgtz (rs : Sys2Proof.Reg) (imm : BitVec 16) :
    Sys2Proof.Laws.EncodedInRow.Statement (.bgtz rs imm) :=
  ⟨rfl, Sys2Proof.encI_mask_op ..⟩
theorem Sys2Proof.Laws.EncodedInRow.addi (rt : Sys2Proof.Reg) (rs : Sys2Proof.Reg) (imm : BitVec 16) :
    Sys2Proof.Laws.EncodedInRow.Statement (.addi rt rs imm) :=
  ⟨rfl, Sys2Proof.encI_mask_op ..⟩
theorem Sys2Proof.Laws.EncodedInRow.addiu (rt : Sys2Proof.Reg) (rs : Sys2Proof.Reg) (imm : BitVec 16) :
    Sys2Proof.Laws.EncodedInRow.Statement (.addiu rt rs imm) :=
  ⟨rfl, Sys2Proof.encI_mask_op ..⟩
theorem Sys2Proof.Laws.EncodedInRow.slti (rt : Sys2Proof.Reg) (rs : Sys2Proof.Reg) (imm : BitVec 16) :
    Sys2Proof.Laws.EncodedInRow.Statement (.slti rt rs imm) :=
  ⟨rfl, Sys2Proof.encI_mask_op ..⟩
theorem Sys2Proof.Laws.EncodedInRow.sltiu (rt : Sys2Proof.Reg) (rs : Sys2Proof.Reg) (imm : BitVec 16) :
    Sys2Proof.Laws.EncodedInRow.Statement (.sltiu rt rs imm) :=
  ⟨rfl, Sys2Proof.encI_mask_op ..⟩
theorem Sys2Proof.Laws.EncodedInRow.andi (rt : Sys2Proof.Reg) (rs : Sys2Proof.Reg) (imm : BitVec 16) :
    Sys2Proof.Laws.EncodedInRow.Statement (.andi rt rs imm) :=
  ⟨rfl, Sys2Proof.encI_mask_op ..⟩
theorem Sys2Proof.Laws.EncodedInRow.ori (rt : Sys2Proof.Reg) (rs : Sys2Proof.Reg) (imm : BitVec 16) :
    Sys2Proof.Laws.EncodedInRow.Statement (.ori rt rs imm) :=
  ⟨rfl, Sys2Proof.encI_mask_op ..⟩
theorem Sys2Proof.Laws.EncodedInRow.xori (rt : Sys2Proof.Reg) (rs : Sys2Proof.Reg) (imm : BitVec 16) :
    Sys2Proof.Laws.EncodedInRow.Statement (.xori rt rs imm) :=
  ⟨rfl, Sys2Proof.encI_mask_op ..⟩
theorem Sys2Proof.Laws.EncodedInRow.lui (rt : Sys2Proof.Reg) (imm : BitVec 16) :
    Sys2Proof.Laws.EncodedInRow.Statement (.lui rt imm) :=
  ⟨rfl, Sys2Proof.encI_mask_op ..⟩
theorem Sys2Proof.Laws.EncodedInRow.mfc0 (rt : Sys2Proof.Reg) (rd : Sys2Proof.Reg) :
    Sys2Proof.Laws.EncodedInRow.Statement (.mfc0 rt rd) :=
  ⟨rfl, Sys2Proof.encR_mask_cop0 ..⟩
theorem Sys2Proof.Laws.EncodedInRow.mtc0 (rt : Sys2Proof.Reg) (rd : Sys2Proof.Reg) :
    Sys2Proof.Laws.EncodedInRow.Statement (.mtc0 rt rd) :=
  ⟨rfl, Sys2Proof.encR_mask_cop0 ..⟩
theorem Sys2Proof.Laws.EncodedInRow.rfe :
    Sys2Proof.Laws.EncodedInRow.Statement (.rfe) :=
  ⟨rfl, rfl⟩
theorem Sys2Proof.Laws.EncodedInRow.lb (rt : Sys2Proof.Reg) (rs : Sys2Proof.Reg) (imm : BitVec 16) :
    Sys2Proof.Laws.EncodedInRow.Statement (.lb rt rs imm) :=
  ⟨rfl, Sys2Proof.encI_mask_op ..⟩
theorem Sys2Proof.Laws.EncodedInRow.lh (rt : Sys2Proof.Reg) (rs : Sys2Proof.Reg) (imm : BitVec 16) :
    Sys2Proof.Laws.EncodedInRow.Statement (.lh rt rs imm) :=
  ⟨rfl, Sys2Proof.encI_mask_op ..⟩
theorem Sys2Proof.Laws.EncodedInRow.lwl (rt : Sys2Proof.Reg) (rs : Sys2Proof.Reg) (imm : BitVec 16) :
    Sys2Proof.Laws.EncodedInRow.Statement (.lwl rt rs imm) :=
  ⟨rfl, Sys2Proof.encI_mask_op ..⟩
theorem Sys2Proof.Laws.EncodedInRow.lw (rt : Sys2Proof.Reg) (rs : Sys2Proof.Reg) (imm : BitVec 16) :
    Sys2Proof.Laws.EncodedInRow.Statement (.lw rt rs imm) :=
  ⟨rfl, Sys2Proof.encI_mask_op ..⟩
theorem Sys2Proof.Laws.EncodedInRow.lbu (rt : Sys2Proof.Reg) (rs : Sys2Proof.Reg) (imm : BitVec 16) :
    Sys2Proof.Laws.EncodedInRow.Statement (.lbu rt rs imm) :=
  ⟨rfl, Sys2Proof.encI_mask_op ..⟩
theorem Sys2Proof.Laws.EncodedInRow.lhu (rt : Sys2Proof.Reg) (rs : Sys2Proof.Reg) (imm : BitVec 16) :
    Sys2Proof.Laws.EncodedInRow.Statement (.lhu rt rs imm) :=
  ⟨rfl, Sys2Proof.encI_mask_op ..⟩
theorem Sys2Proof.Laws.EncodedInRow.lwr (rt : Sys2Proof.Reg) (rs : Sys2Proof.Reg) (imm : BitVec 16) :
    Sys2Proof.Laws.EncodedInRow.Statement (.lwr rt rs imm) :=
  ⟨rfl, Sys2Proof.encI_mask_op ..⟩
theorem Sys2Proof.Laws.EncodedInRow.sb (rt : Sys2Proof.Reg) (rs : Sys2Proof.Reg) (imm : BitVec 16) :
    Sys2Proof.Laws.EncodedInRow.Statement (.sb rt rs imm) :=
  ⟨rfl, Sys2Proof.encI_mask_op ..⟩
theorem Sys2Proof.Laws.EncodedInRow.sh (rt : Sys2Proof.Reg) (rs : Sys2Proof.Reg) (imm : BitVec 16) :
    Sys2Proof.Laws.EncodedInRow.Statement (.sh rt rs imm) :=
  ⟨rfl, Sys2Proof.encI_mask_op ..⟩
theorem Sys2Proof.Laws.EncodedInRow.swl (rt : Sys2Proof.Reg) (rs : Sys2Proof.Reg) (imm : BitVec 16) :
    Sys2Proof.Laws.EncodedInRow.Statement (.swl rt rs imm) :=
  ⟨rfl, Sys2Proof.encI_mask_op ..⟩
theorem Sys2Proof.Laws.EncodedInRow.sw (rt : Sys2Proof.Reg) (rs : Sys2Proof.Reg) (imm : BitVec 16) :
    Sys2Proof.Laws.EncodedInRow.Statement (.sw rt rs imm) :=
  ⟨rfl, Sys2Proof.encI_mask_op ..⟩
theorem Sys2Proof.Laws.EncodedInRow.swr (rt : Sys2Proof.Reg) (rs : Sys2Proof.Reg) (imm : BitVec 16) :
    Sys2Proof.Laws.EncodedInRow.Statement (.swr rt rs imm) :=
  ⟨rfl, Sys2Proof.encI_mask_op ..⟩
end

