-- ==== Sys2Proof/Laws/Step.lean ====
section
/-! SUPPORT. Everything the fetch and the step can do, said once (40_cycle.md R110 to R114), and what every instruction
leaves alone. -/

namespace Sys2Proof.Machine

/-! ## The fetch (R110 stage 1) -/

theorem fetch_misaligned {s : State} (h : aligned s.pc .word = false) : fetch s = .ended (raiseExc .adEL s) := by
  simp [fetch, h]

theorem fetch_unmapped {s : State} (h : aligned s.pc .word = true) (hc : classify s.params.regions s.pc = none) :
    fetch s = .ended (s.setHalted (.unmappedAddress s.pc .fetch)) := by
  simp [fetch, h, memRead_unmapped h hc]

theorem fetch_array {s : State} {a : ArrayId} (h : aligned s.pc .word = true)
    (hc : classify s.params.regions s.pc = some (.array a)) :
    fetch s = .word (readLE (s.array a) (localIndex a s.pc) .word) s := by
  simp [fetch, h, memRead_array h hc]

theorem fetch_stub {s : State} {d : Dev} (h : aligned s.pc .word = true)
    (hc : classify s.params.regions s.pc = some (.dev d)) (hd : s.params.dev = .stub) :
    fetch s = .word 0 (s.logDevCall (.load d .word s.pc)) := by
  simp [fetch, h, memRead_dev h hc, devLoad, hd]

theorem fetch_oracle {s : State} {d : Dev} (h : aligned s.pc .word = true)
    (hc : classify s.params.regions s.pc = some (.dev d)) (hd : s.params.dev = .oracle) :
    fetch s = .word (Config.devLoad s.draws d .word s.pc) (s.logDevCall (.load d .word s.pc)).countDraw := by
  simp [fetch, h, memRead_dev h hc, devLoad, hd, truncTo]

/-- A fetch that gives a word came from an aligned `pc` in a region and changed nothing but the record of device calls
and the draw counter. -/
theorem fetch_word {s t : State} {w : Word} (h : fetch s = .word w t) :
    aligned s.pc .word = true ∧
      (t = s ∨ ∃ d, t = s.logDevCall (.load d .word s.pc) ∨ t = (s.logDevCall (.load d .word s.pc)).countDraw) := by
  unfold fetch at h
  split at h
  · next ha =>
    refine ⟨ha, ?_⟩
    unfold memRead at h
    rw [if_pos ha] at h
    cases hc : classify s.params.regions s.pc with
    | none => rw [hc] at h; cases h
    | some b =>
      cases b with
      | array a => rw [hc] at h; cases h; exact .inl rfl
      | dev d =>
        rw [hc] at h
        dsimp only at h
        rcases devLoad_cases d .word s.pc s with e | e <;> rw [e] at h <;> cases h
        · exact .inr ⟨d, .inl rfl⟩
        · exact .inr ⟨d, .inr rfl⟩
  · cases h

/-- A fetch that ends the step took the address error (R111) or set the latch (R112). -/
theorem fetch_ended {s t : State} (h : fetch s = .ended t) :
    (aligned s.pc .word = false ∧ t = raiseExc .adEL s) ∨
      (aligned s.pc .word = true ∧ t = s.setHalted (.unmappedAddress s.pc .fetch)) := by
  cases ha : aligned s.pc .word with
  | false => rw [fetch_misaligned ha] at h; cases h; exact .inl ⟨rfl, rfl⟩
  | true =>
    cases hc : classify s.params.regions s.pc with
    | none => rw [fetch_unmapped ha hc] at h; cases h; exact .inr ⟨rfl, rfl⟩
    | some b =>
      cases b with
      | array a => rw [fetch_array ha hc] at h; cases h
      | dev d =>
        cases hd : s.params.dev with
        | stub => rw [fetch_stub ha hc hd] at h; cases h
        | oracle => rw [fetch_oracle ha hc hd] at h; cases h

/-! ## The step -/

theorem step_running {s : State} (h : s.halt = .running) : step s = fetchExecute exec s := by
  simp [step, h]

theorem step_latched {s : State} {r : HaltReason} (h : s.halt = .halted r) : step s = .fault (.latched r) := by
  simp [step, h]

/-- The step when the fetch gives an instruction. -/
theorem step_instr {s t : State} {w : Word} {i : Instr} (h : s.halt = .running) (hf : fetch s = .word w t)
    (hd : decode w = .instr i) : step s = exec i (advance t) := by
  simp [step_running h, fetchExecute, hf, executeWord, hd]

/-- The step when the fetch gives a word that is no instruction (30_encoding.md R98). -/
theorem step_unimplemented {s t : State} {w : Word} {why : Reject} (h : s.halt = .running) (hf : fetch s = .word w t)
    (hd : decode w = .unimplemented why) : step s = .next (haltUnimplemented w (advance t)) := by
  simp [step_running h, fetchExecute, hf, executeWord, hd]

/-- The step when the fetch ends it. -/
theorem step_ended {s t : State} (h : s.halt = .running) (hf : fetch s = .ended t) : step s = .next t := by
  simp [step_running h, fetchExecute, hf]

/-- The four ways a step gives a next state: the fetch ends it, the word is no instruction, or an instruction runs; and
the latch was Running. -/
theorem step_next {s t : State} (h : step s = .next t) :
    s.halt = .running ∧
      (fetch s = .ended t ∨
        (∃ w u why, fetch s = .word w u ∧ decode w = .unimplemented why ∧ t = haltUnimplemented w (advance u)) ∨
        (∃ w u i, fetch s = .word w u ∧ decode w = .instr i ∧ exec i (advance u) = .next t)) := by
  cases hh : s.halt with
  | halted r => rw [step_latched hh] at h; cases h
  | running =>
    refine ⟨rfl, ?_⟩
    cases hf : fetch s with
    | ended u => rw [step_ended hh hf] at h; cases h; exact .inl rfl
    | word w u =>
      cases hd : decode w with
      | unimplemented why =>
        rw [step_unimplemented hh hf hd] at h
        cases h
        exact .inr (.inl ⟨w, u, why, rfl, hd, rfl⟩)
      | instr i =>
        rw [step_instr hh hf hd] at h
        exact .inr (.inr ⟨w, u, i, rfl, hd, h⟩)

/-- The instruction a coming step runs, from its fetch and its decoding. -/
theorem nextInstr_of_fetch {s t : State} {w : Word} {i : Instr} (hf : fetch s = .word w t) (hd : decode w = .instr i) :
    s.nextInstr = some i := by
  simp [State.nextInstr, hf, hd]

/-- And back: what is fetched when the coming step runs `i`. -/
theorem fetch_of_nextInstr {s : State} {i : Instr} (h : s.nextInstr = some i) :
    ∃ w t, fetch s = .word w t ∧ decode w = .instr i := by
  unfold State.nextInstr at h
  split at h
  · next w t hf =>
    split at h
    · next j hd => cases h; exact ⟨w, t, hf, hd⟩
    · cases h
  · cases h

/-! ## What every instruction leaves alone -/

/-- The ROM array, the parameters, `current_pc` and the unused register slot are as before, and canonical arrays stay
canonical. -/
structure Keeps (s t : State) : Prop where
  rom : t.rom = s.rom
  params : t.params = s.params
  currentPc : t.currentPc = s.currentPc
  zeroSlot : t.regs[0] = s.regs[0]
  arraysWf : s.arraysWf = true → t.arraysWf = true

theorem Keeps.refl (s : State) : Keeps s s := ⟨rfl, rfl, rfl, rfl, id⟩

theorem Keeps.trans {s t u : State} (h : Keeps s t) (k : Keeps t u) : Keeps s u :=
  ⟨k.rom.trans h.rom, k.params.trans h.params, k.currentPc.trans h.currentPc, k.zeroSlot.trans h.zeroSlot,
    fun w => k.arraysWf (h.arraysWf w)⟩

theorem arraysWf_congr {s t : State} (hr : t.ram = s.ram) (ho : t.rom = s.rom) (hs : t.scratch = s.scratch) :
    t.arraysWf = s.arraysWf := by
  simp [State.arraysWf, hr, ho, hs]

theorem keeps_setReg (s : State) (r : Reg) (v : Word) : Keeps s (s.setReg r v) :=
  ⟨by simp, by simp, by simp, zeroSlot_setReg s r v, fun h => by
    rw [arraysWf_congr (s := s) (by simp) (by simp) (by simp)]; exact h⟩

theorem keeps_setHiLo (s : State) (h l : Word) : Keeps s (s.setHiLo h l) := ⟨rfl, rfl, rfl, rfl, id⟩
theorem keeps_setNextPc (s : State) (v : Word) : Keeps s (s.setNextPc v) := ⟨rfl, rfl, rfl, rfl, id⟩
theorem keeps_countDraw (s : State) : Keeps s s.countDraw := ⟨rfl, rfl, rfl, rfl, id⟩
theorem keeps_setCp0Word (s : State) (k : Reg) (v : Word) : Keeps s (s.setCp0Word k v) := ⟨rfl, rfl, rfl, rfl, id⟩
theorem keeps_raiseExc (c : ExcCode) (s : State) : Keeps s (raiseExc c s) := ⟨rfl, rfl, rfl, rfl, id⟩

theorem keeps_memRead (kind : AccessKind) (addr : Word) (n : Width) (s : State) :
    Keeps s (memRead kind addr n s).state := by
  obtain ⟨h1, _, _, h4, h5, h6, h7, h8⟩ := memRead_frame kind addr n s
  exact ⟨h5, h7, h8, by rw [h1], fun h => by rw [arraysWf_congr h4 h5 h6]; exact h⟩

theorem keeps_memWrite (addr : Word) (n : Width) (v : Word) (s : State) : Keeps s (memWrite addr n v s) := by
  obtain ⟨h1, _, _, h4, h5, _, h7⟩ := memWrite_frame addr n v s
  exact ⟨h4, h5, h7, by rw [h1], arraysWf_memWrite addr n v⟩

theorem keeps_finishLoad (rt : Reg) (f : Word → Word) (kind : AccessKind) (addr : Word) (n : Width) (s : State) :
    Keeps s (finishLoad rt f (memRead kind addr n s)) := by
  have h := keeps_memRead kind addr n s
  revert h
  cases memRead kind addr n s with
  | value v t => exact fun h => h.trans (keeps_setReg t rt (f v))
  | halted t => exact fun h => h

theorem keeps_finishMerge (al : Word) (f : Word → Word) (kind : AccessKind) (addr : Word) (n : Width) (s : State) :
    Keeps s (finishMerge al f (memRead kind addr n s)) := by
  have h := keeps_memRead kind addr n s
  revert h
  cases memRead kind addr n s with
  | value v t => exact fun h => h.trans (keeps_memWrite al .word (f v) t)
  | halted t => exact fun h => h

theorem keeps_addTrapping (rd : Reg) (x y : Word) (s : State) : Keeps s (addTrapping rd x y s) := by
  unfold addTrapping
  split
  · exact keeps_raiseExc .ov s
  · exact keeps_setReg s rd _

theorem keeps_branchLinkIf (c : Word → Bool) (rs : Reg) (imm : BitVec 16) (s : State) :
    Keeps s (branchLinkIf c rs imm s) := by
  unfold branchLinkIf branchIf writeLink
  split
  · exact (keeps_setReg s _ _).trans ((keeps_countDraw _).trans (keeps_setNextPc _ _))
  · exact (keeps_setReg s _ _).trans (keeps_setNextPc _ _)

/-- Every instruction answers a next state, and keeps what `Keeps` names. -/
theorem exec_keeps (i : Instr) (s : State) : ∃ t, exec i s = .next t ∧ Keeps s t := by
  cases i with
  | jalr rd rs =>
    refine ⟨_, rfl, ?_⟩
    split
    · exact ((keeps_setReg s _ _).trans (keeps_setNextPc _ _)).trans (keeps_countDraw _)
    · exact (keeps_setReg s _ _).trans (keeps_setNextPc _ _)
  | jal t => exact ⟨_, rfl, (keeps_setReg s _ _).trans (keeps_setNextPc _ _)⟩
  | div rs rt => exact ⟨_, rfl, by split <;> exact keeps_setHiLo s _ _⟩
  | divu rs rt => exact ⟨_, rfl, by split <;> exact keeps_setHiLo s _ _⟩
  | _ =>
    first
    | exact ⟨_, rfl, keeps_setReg s _ _⟩
    | exact ⟨_, rfl, keeps_addTrapping _ _ _ s⟩
    | exact ⟨_, rfl, keeps_setHiLo s _ _⟩
    | exact ⟨_, rfl, keeps_setNextPc s _⟩
    | exact ⟨_, rfl, keeps_branchLinkIf _ _ _ s⟩
    | exact ⟨_, rfl, keeps_finishLoad _ _ _ _ _ s⟩
    | exact ⟨_, rfl, keeps_finishMerge _ _ _ _ _ s⟩
    | exact ⟨_, rfl, keeps_memWrite _ _ _ s⟩
    | exact ⟨_, rfl, keeps_raiseExc _ s⟩
    | exact ⟨_, rfl, keeps_setCp0Word s _ _⟩

/-! ## The host's operations keep the canonical form -/

theorem arraysWf_loadBios {s t : State} {image : List Byte} (hw : s.arraysWf = true)
    (h : s.loadBios image = some t) : t.arraysWf = true := by
  unfold State.loadBios at h
  split at h
  · next hl => cases h; exact arraysWf_setArray hw (wf_ofBytes image (by omega))
  · cases h

theorem arraysWf_placeInstruction {s : State} (w : Word) (hw : s.arraysWf = true) :
    (placeInstruction w s).arraysWf = true := by
  unfold placeInstruction placeWord
  have hw' : ({ s with halt := .running } : State).arraysWf = true := hw
  split
  · next a ha =>
    unfold fetchArray at ha
    split at ha
    · next hal => exact arraysWf_setArray hw' (wf_writeLE .word w (wf_array hw' a) (localIndex_bound a hal))
    · cases ha
  · exact arraysWf_setArray (a := .rom) hw'
      (wf_writeLE .word w (wf_array hw' .rom) (localIndex_bound .rom (addr := resetPc) (by decide)))

end Sys2Proof.Machine
end

