-- ==== Sys2Proof/Tests/Slice0.lean ====
section
/-! SUPPORT. Tests. Every expected value is the spec's own: the examples of 41_shift.md to 48_cop0_system.md and the
vectors of 95_test_vectors.md. Then a witness for the hypotheses of every statement. -/

namespace Sys2Proof.Tests

open Sys2Proof.Machine

/-! ## WellFormed: an ill-formed term for each check (93 U3, U4), and terms that pass -/

theorem test_wellFormed_refuses_bltzal_31 : (Instr.bltzal 31 4).wellFormed = false := by decide
theorem test_wellFormed_refuses_bgezal_31 : (Instr.bgezal 31 4).wellFormed = false := by decide
theorem test_wellFormed_refuses_jalr_same : (Instr.jalr 5 5).wellFormed = false := by decide
theorem test_wellFormed_accepts :
    (Instr.bltzal 30 4).wellFormed = true ∧ (Instr.jalr 31 4).wellFormed = true ∧
      (Instr.jalr 0 0).wellFormed = true ∧ (Instr.add 31 31 31).wellFormed = true := by decide

/-! ## Decoding: the words of the spec's Example lines, every constructor -/

theorem test_decode_shift :
    decode 0x00031100 = .instr (.sll 2 3 4) ∧
    decode 0x00031102 = .instr (.srl 2 3 4) ∧
    decode 0x00031103 = .instr (.sra 2 3 4) ∧
    decode 0x00831004 = .instr (.sllv 2 3 4) ∧
    decode 0x00831006 = .instr (.srlv 2 3 4) ∧
    decode 0x00831007 = .instr (.srav 2 3 4) := by decide

theorem test_decode_jump :
    decode 0x03E00008 = .instr (.jr 31) ∧
    decode 0x00802809 = .instr (.jalr 5 4) ∧
    decode 0x08000800 = .instr (.j 0x800) ∧
    decode 0x0C000800 = .instr (.jal 0x800) ∧
    decode 0x0BFFFFFF = .instr (.j 0x3FFFFFF) := by decide

theorem test_decode_muldiv :
    decode 0x00850018 = .instr (.mult 4 5) ∧
    decode 0x00850019 = .instr (.multu 4 5) ∧
    decode 0x0085001A = .instr (.div 4 5) ∧
    decode 0x0085001B = .instr (.divu 4 5) ∧
    decode 0x00001010 = .instr (.mfhi 2) ∧
    decode 0x00001012 = .instr (.mflo 2) := by decide

theorem test_decode_arith :
    decode 0x00851020 = .instr (.add 2 4 5) ∧
    decode 0x00851021 = .instr (.addu 2 4 5) ∧
    decode 0x00851023 = .instr (.subu 2 4 5) ∧
    decode 0x2082FFFF = .instr (.addi 2 4 0xFFFF) ∧
    decode 0x2482FFFF = .instr (.addiu 2 4 0xFFFF) := by decide

theorem test_decode_logic :
    decode 0x00851024 = .instr (.and 2 4 5) ∧
    decode 0x00851025 = .instr (.or 2 4 5) ∧
    decode 0x00851026 = .instr (.xor 2 4 5) ∧
    decode 0x00851027 = .instr (.nor 2 4 5) ∧
    decode 0x3082FF00 = .instr (.andi 2 4 0xFF00) ∧
    decode 0x3482FF00 = .instr (.ori 2 4 0xFF00) ∧
    decode 0x3882FF00 = .instr (.xori 2 4 0xFF00) ∧
    decode 0x3C021234 = .instr (.lui 2 0x1234) ∧
    decode 0x3FE2FFFF = .instr (.lui 2 0xFFFF) := by decide

theorem test_decode_compare :
    decode 0x0085102A = .instr (.slt 2 4 5) ∧
    decode 0x0085102B = .instr (.sltu 2 4 5) ∧
    decode 0x2882FFFF = .instr (.slti 2 4 0xFFFF) ∧
    decode 0x2C82FFFF = .instr (.sltiu 2 4 0xFFFF) := by decide

theorem test_decode_branch :
    decode 0x10850003 = .instr (.beq 4 5 3) ∧
    decode 0x1485FFFE = .instr (.bne 4 5 0xFFFE) ∧
    decode 0x18800003 = .instr (.blez 4 3) ∧
    decode 0x1C800003 = .instr (.bgtz 4 3) ∧
    decode 0x04800003 = .instr (.bltz 4 3) ∧
    decode 0x04810003 = .instr (.bgez 4 3) ∧
    decode 0x04900003 = .instr (.bltzal 4 3) ∧
    decode 0x04910003 = .instr (.bgezal 4 3) := by decide

theorem test_decode_load :
    decode 0x83A2FFFC = .instr (.lb 2 29 0xFFFC) ∧
    decode 0x90820001 = .instr (.lbu 2 4 1) ∧
    decode 0x84820002 = .instr (.lh 2 4 2) ∧
    decode 0x94820002 = .instr (.lhu 2 4 2) ∧
    decode 0x8C820004 = .instr (.lw 2 4 4) ∧
    decode 0x88820003 = .instr (.lwl 2 4 3) ∧
    decode 0x98820001 = .instr (.lwr 2 4 1) := by decide

theorem test_decode_store :
    decode 0xA0820001 = .instr (.sb 2 4 1) ∧
    decode 0xA4820002 = .instr (.sh 2 4 2) ∧
    decode 0xAC820008 = .instr (.sw 2 4 8) ∧
    decode 0xA8820003 = .instr (.swl 2 4 3) ∧
    decode 0xB8820001 = .instr (.swr 2 4 1) := by decide

theorem test_decode_system :
    decode 0x40026000 = .instr (.mfc0 2 12) ∧
    decode 0x40826800 = .instr (.mtc0 2 13) ∧
    decode 0x42000010 = .instr (.rfe) ∧
    decode 0x421FFFD0 = .instr (.rfe) ∧
    decode 0x0000000C = .instr (.syscall) ∧
    decode 0x03FFFFCC = .instr (.syscall) := by decide

/-- One word per format group, written field by field from 30_encoding.md R91, R96, R99, R100. -/
theorem test_decode_fields :
    decode (0b000000#6 ++ 0b00000#5 ++ 0b00011#5 ++ 0b00010#5 ++ 0b00100#5 ++ 0b000010#6) = .instr (.srl 2 3 4) ∧
    decode (0b000000#6 ++ 0b00100#5 ++ 0b00101#5 ++ 0b00010#5 ++ 0b00000#5 ++ 0b100011#6) = .instr (.subu 2 4 5) ∧
    decode (0b000000#6 ++ 0b00100#5 ++ 0b00101#5 ++ 0b00000#5 ++ 0b00000#5 ++ 0b011010#6) = .instr (.div 4 5) ∧
    decode (0b000000#6 ++ 0b00100#5 ++ 0b00000#5 ++ 0b11111#5 ++ 0b00000#5 ++ 0b001001#6) = .instr (.jalr 31 4) ∧
    decode (0b000001#6 ++ 0b00100#5 ++ 0b10001#5 ++ 0x0003#16) = .instr (.bgezal 4 3) ∧
    decode (0b000011#6 ++ 0x0000800#26) = .instr (.jal 0x800) ∧
    decode (0b001011#6 ++ 0b00100#5 ++ 0b00010#5 ++ 0xFFFF#16) = .instr (.sltiu 2 4 0xFFFF) ∧
    decode (0b001101#6 ++ 0b00100#5 ++ 0b00010#5 ++ 0xFF00#16) = .instr (.ori 2 4 0xFF00) ∧
    decode (0b100110#6 ++ 0b00100#5 ++ 0b00010#5 ++ 0x0001#16) = .instr (.lwr 2 4 1) ∧
    decode (0b101011#6 ++ 0b00100#5 ++ 0b00010#5 ++ 0x0008#16) = .instr (.sw 2 4 8) ∧
    decode (0b010000#6 ++ 0b00100#5 ++ 0b00010#5 ++ 0b01100#5 ++ 0b00000000000#11) = .instr (.mtc0 2 12) := by decide

/-- 95_test_vectors.md part 2.11. -/
theorem test_decode_unimplemented :
    decode 0x00851022 = .unimplemented (.special 0x22) ∧ decode 0x0000000D = .unimplemented (.special 0x0D) ∧
    decode 0x00800011 = .unimplemented (.special 0x11) ∧ decode 0x4A000001 = .unimplemented (.primary 0x12) ∧
    decode 0xC8820000 = .unimplemented (.primary 0x32) ∧ decode 0x42000001 = .unimplemented (.cop0Op 1) ∧
    decode 0x40420000 = .unimplemented (.cop0Select 2) ∧ decode 0x04820004 = .unimplemented (.region1 2) ∧
    decode 0x04920004 = .unimplemented (.region1 0x12) ∧ decode 0xFFFFFFFF = .unimplemented (.primary 0x3F) := by decide

/-- Four bytes lie in memory lowest first (part 3: word 0x24080005 is bytes 05 00 08 24); fewer are no instruction. -/
theorem test_decode_bytes :
    decodeBytes [0x05, 0x00, 0x08, 0x24, 0xFF] = (.instr (.addiu 8 0 5), [0xFF]) ∧
    decodeBytes [0x05, 0x00, 0x08] = (.unimplemented .truncated, [0x05, 0x00, 0x08]) := by decide

theorem test_decode_table_word :
    decodeTableWord 32 0x24080005 = some (.addiu 8 0 5) ∧ decodeTableWord 32 0x0000000D = none := by decide

/-! ## Small states -/

/-- What `f` reads of the next state. -/
def nextOf {α : Type} (o : Host.Outcome State Fault Refusal) (f : State → α) : Option α :=
  match o with
  | .next t => some (f t)
  | .fault _ => none
  | .refused _ => none

/-- During the execute stage of an instruction at 0x80001000 that is in no delay slot. -/
def base : State := { State.reset with currentPc := 0x80001000, pc := 0x80001004, nextPc := 0x80001008 }

/-- The same with x[4] and x[5]. -/
def base45 (x y : Word) : State := (base.setReg 4 x).setReg 5 y

/-- The same with "memory M" of 95_test_vectors.md, x[4] = 0x80002000 + k and x[2] = 0x11223344. -/
def baseM (k : Word) : State :=
  { (base.setReg 4 (0x80002000 + k)).setReg 2 0x11223344 with
    ram := Memory.ofBytes [0xBB, 0xAA, 0x99, 0x88, 0x77, 0x66, 0x55, 0x44] 0x2000 }

/-- The word of RAM at an offset. -/
def ramWord (s : State) (i : Nat) : Word := readLE s.ram i .word

/-- Before a step, at 0x80001000, with the word there. -/
def before (w : Word) : State :=
  { State.reset with pc := 0x80001000, nextPc := 0x80001004, ram := writeLE [] 0x1000 .word w }

/-- cause, epc, pc, next_pc: what an exception leaves. -/
def entry (t : State) : Word × Word × Word × Word := (t.cause, t.epc, t.pc, t.nextPc)

/-- The entry of an instruction at 0x80001000 in no delay slot, at sr = 0. -/
def entered (cause : Word) : Word × Word × Word × Word := (cause, 0x80001000, 0x80000080, 0x80000084)

/-! ## One step per test, the vectors of 95_test_vectors.md -/

theorem test_sll :
    nextOf (exec (.sll 2 4 31) (base45 3 0)) (·.reg 2) = some 0x80000000 ∧
    nextOf (exec (.sll 0 4 0) (base45 3 0)) (·.reg 0) = some 0 := by decide

theorem test_srl :
    nextOf (exec (.srl 2 4 4) (base45 0xF0000001 0)) (·.reg 2) = some 0x0F000000 := by decide

theorem test_sra :
    nextOf (exec (.sra 2 4 31) (base45 0x80000000 0)) (·.reg 2) = some 0xFFFFFFFF ∧
    nextOf (exec (.sra 2 4 31) (base45 0x7FFFFFFF 0)) (·.reg 2) = some 0 := by decide

theorem test_sllv :
    nextOf (exec (.sllv 2 4 5) (base45 1 0x20)) (·.reg 2) = some 1 ∧
    nextOf (exec (.sllv 2 4 5) (base45 1 0xFFFFFFFF)) (·.reg 2) = some 0x80000000 := by decide

theorem test_srlv :
    nextOf (exec (.srlv 2 4 5) (base45 0x80000000 0x27)) (·.reg 2) = some 0x01000000 := by decide

theorem test_srav :
    nextOf (exec (.srav 2 4 5) (base45 0x80000000 0x27)) (·.reg 2) = some 0xFF000000 := by decide

theorem test_add :
    nextOf (exec (.add 2 4 5) (base45 0x7FFFFFFE 1)) (·.reg 2) = some 0x7FFFFFFF ∧
    nextOf (exec (.add 2 4 5) (base45 0x7FFFFFFF 1)) (fun t => (t.reg 2, entry t)) = some (0, entered 0x30) ∧
    nextOf (exec (.add 2 4 5) (base45 0x80000000 0xFFFFFFFF)) entry = some (entered 0x30) := by decide

theorem test_addi :
    nextOf (exec (.addi 2 4 0x7FFF) (base45 0x7FFF8000 0)) (·.reg 2) = some 0x7FFFFFFF ∧
    nextOf (exec (.addi 2 4 0xFFFF) (base45 0x80000000 0)) entry = some (entered 0x30) := by decide

theorem test_addu :
    nextOf (exec (.addu 2 4 5) (base45 0xFFFFFFFF 2)) (·.reg 2) = some 1 ∧
    nextOf (exec (.addu 2 4 5) (base45 0x7FFFFFFF 1)) (·.reg 2) = some 0x80000000 := by decide

theorem test_subu :
    nextOf (exec (.subu 2 4 5) (base45 0 1)) (·.reg 2) = some 0xFFFFFFFF ∧
    nextOf (exec (.subu 2 4 5) (base45 0x80000000 1)) (·.reg 2) = some 0x7FFFFFFF := by decide

theorem test_addiu :
    nextOf (exec (.addiu 2 4 0xFFFF) (base45 0x80000000 0)) (·.reg 2) = some 0x7FFFFFFF ∧
    nextOf (exec (.addiu 0 0 0x1234) (base45 0 0)) (·.reg 0) = some 0 := by decide

theorem test_mult :
    nextOf (exec (.mult 4 5) (base45 0x80000000 0x7FFFFFFF)) (fun t => (t.hi, t.lo)) = some (0xC0000000, 0x80000000) ∧
    nextOf (exec (.mult 4 5) (base45 0xFFFFFFFE 3)) (fun t => (t.hi, t.lo)) = some (0xFFFFFFFF, 0xFFFFFFFA) := by decide

theorem test_multu :
    nextOf (exec (.multu 4 5) (base45 0xFFFFFFFF 0xFFFFFFFF)) (fun t => (t.hi, t.lo)) = some (0xFFFFFFFE, 1) := by decide

theorem test_div :
    nextOf (exec (.div 4 5) (base45 0xFFFFFFF9 2)) (fun t => (t.hi, t.lo)) = some (0xFFFFFFFF, 0xFFFFFFFD) ∧
    nextOf (exec (.div 4 5) (base45 7 0xFFFFFFFE)) (fun t => (t.hi, t.lo)) = some (1, 0xFFFFFFFD) := by decide

theorem test_div_corners :
    nextOf (exec (.div 4 5) (base45 0xFFFFFFFB 0)) (fun t => (t.hi, t.lo)) = some (0xFFFFFFFB, 0xFFFFFFFF) ∧
    nextOf (exec (.div 4 5) (base45 0x80000000 0xFFFFFFFF)) (fun t => (t.hi, t.lo)) = some (0, 0x80000000) := by decide

theorem test_divu :
    nextOf (exec (.divu 4 5) (base45 0xFFFFFFF9 2)) (fun t => (t.hi, t.lo)) = some (1, 0x7FFFFFFC) ∧
    nextOf (exec (.divu 4 5) (base45 5 0)) (fun t => (t.hi, t.lo)) = some (5, 0xFFFFFFFF) := by decide

theorem test_mfhi_mflo :
    nextOf (exec (.mfhi 2) (base.setHiLo 0xCAFEF00D 1)) (·.reg 2) = some 0xCAFEF00D ∧
    nextOf (exec (.mflo 2) (base.setHiLo 1 0xCAFEF00D)) (·.reg 2) = some 0xCAFEF00D := by decide

theorem test_and_or :
    nextOf (exec (.and 2 4 5) (base45 0xFF00FF00 0x0FF00FF0)) (·.reg 2) = some 0x0F000F00 ∧
    nextOf (exec (.or 2 4 5) (base45 0xFF00FF00 0x0FF00FF0)) (·.reg 2) = some 0xFFF0FFF0 := by decide

theorem test_xor_nor :
    nextOf (exec (.xor 2 4 5) (base45 0xFF00FF00 0x0FF00FF0)) (·.reg 2) = some 0xF0F0F0F0 ∧
    nextOf (exec (.nor 2 4 5) (base45 0xFF00FF00 0x0FF00FF0)) (·.reg 2) = some 0x000F000F := by decide

theorem test_slt_sltu :
    nextOf (exec (.slt 2 4 5) (base45 0x80000000 0x7FFFFFFF)) (·.reg 2) = some 1 ∧
    nextOf (exec (.sltu 2 4 5) (base45 0x80000000 0x7FFFFFFF)) (·.reg 2) = some 0 := by decide

theorem test_andi_ori :
    nextOf (exec (.andi 2 4 0xFF00) (base45 0x12345678 0)) (·.reg 2) = some 0x00005600 ∧
    nextOf (exec (.ori 2 4 0xFF00) (base45 0x12345678 0)) (·.reg 2) = some 0x1234FF78 := by decide

theorem test_xori_lui :
    nextOf (exec (.xori 2 4 0xFFFF) (base45 0xFFFFFFFF 0)) (·.reg 2) = some 0xFFFF0000 ∧
    nextOf (exec (.lui 2 0x8000) (base45 0 0)) (·.reg 2) = some 0x80000000 := by decide

theorem test_slti :
    nextOf (exec (.slti 2 4 0xFFFF) (base45 0xFFFFFFFE 0)) (·.reg 2) = some 1 ∧
    nextOf (exec (.slti 2 4 0xFFFF) (base45 0 0)) (·.reg 2) = some 0 := by decide

/-- The immediate is sign-extended, then compared unsigned (C4). -/
theorem test_sltiu :
    nextOf (exec (.sltiu 2 4 0x8000) (base45 0x00010000 0)) (·.reg 2) = some 1 ∧
    nextOf (exec (.sltiu 2 4 0xFFFF) (base45 0xFFFFFFFF 0)) (·.reg 2) = some 0 := by decide

theorem test_beq :
    nextOf (exec (.beq 4 5 3) (base45 7 7)) (·.nextPc) = some 0x80001010 ∧
    nextOf (exec (.beq 4 5 3) (base45 7 8)) (·.nextPc) = some 0x80001008 ∧
    nextOf (exec (.beq 0 0 0x8000) (base45 0 0)) (·.nextPc) = some 0x7FFE1004 := by decide

theorem test_bne :
    nextOf (exec (.bne 4 5 0xFFFE) (base45 1 2)) (·.nextPc) = some 0x80000FFC ∧
    nextOf (exec (.bne 4 4 0xFFFE) (base45 1 2)) (·.nextPc) = some 0x80001008 := by decide

theorem test_blez :
    nextOf (exec (.blez 4 4) (base45 0 0)) (·.nextPc) = some 0x80001014 ∧
    nextOf (exec (.blez 4 4) (base45 1 0)) (·.nextPc) = some 0x80001008 := by decide

theorem test_bgtz :
    nextOf (exec (.bgtz 4 4) (base45 0 0)) (·.nextPc) = some 0x80001008 ∧
    nextOf (exec (.bgtz 4 4) (base45 0x7FFFFFFF 0)) (·.nextPc) = some 0x80001014 := by decide

theorem test_bltz :
    nextOf (exec (.bltz 4 4) (base45 0xFFFFFFFF 0)) (·.nextPc) = some 0x80001014 ∧
    nextOf (exec (.bltz 4 4) (base45 0 0)) (·.nextPc) = some 0x80001008 := by decide

theorem test_bgez :
    nextOf (exec (.bgez 4 4) (base45 0 0)) (·.nextPc) = some 0x80001014 ∧
    nextOf (exec (.bgez 4 4) (base45 0x80000000 0)) (·.nextPc) = some 0x80001008 := by decide

theorem test_bltzal :
    nextOf (exec (.bltzal 4 4) (base45 0xFFFFFFFF 0)) (fun t => (t.pc, t.nextPc, t.reg 31)) = some (0x80001004, 0x80001014, 0x80001008) ∧
    nextOf (exec (.bltzal 4 4) (base45 1 0)) (fun t => (t.pc, t.nextPc, t.reg 31)) = some (0x80001004, 0x80001008, 0x80001008) := by decide

theorem test_bgezal :
    nextOf (exec (.bgezal 4 4) (base45 0 0)) (fun t => (t.pc, t.nextPc, t.reg 31)) = some (0x80001004, 0x80001014, 0x80001008) ∧
    nextOf (exec (.bgezal 4 4) (base45 0xFFFFFFFF 0)) (fun t => (t.pc, t.nextPc, t.reg 31)) = some (0x80001004, 0x80001008, 0x80001008) := by decide

theorem test_j :
    nextOf (exec (.j 0x800) base) (·.nextPc) = some 0x80002000 ∧
    nextOf (exec (.j 0x3FFFFFF) base) (·.nextPc) = some 0x8FFFFFFC := by decide

theorem test_jal :
    nextOf (exec (.jal 0x800) base) (fun t => (t.pc, t.nextPc, t.reg 31)) = some (0x80001004, 0x80002000, 0x80001008) ∧
    nextOf (exec (.jal 0) { base with pc := 0xBFC00014 }) (fun t => (t.pc, t.nextPc, t.reg 31)) = some (0xBFC00014, 0xB0000000, 0xBFC00018) := by decide

theorem test_jr :
    nextOf (exec (.jr 4) (base45 0x80003002 0)) (fun t => (t.pc, t.nextPc)) = some (0x80001004, 0x80003002) := by decide

theorem test_jalr :
    nextOf (exec (.jalr 5 4) (base45 0x80003000 0)) (fun t => (t.nextPc, t.reg 5, t.reg 31)) = some (0x80003000, 0x80001008, 0) ∧
    nextOf (exec (.jalr 0 4) (base45 0x80003000 0)) (fun t => (t.nextPc, t.reg 0)) = some (0x80003000, 0) := by decide

theorem test_lb_lbu :
    nextOf (exec (.lb 2 4 3) (baseM 0)) (·.reg 2) = some 0xFFFFFF88 ∧
    nextOf (exec (.lbu 2 4 1) (baseM 0)) (·.reg 2) = some 0x000000AA := by decide

theorem test_lh :
    nextOf (exec (.lh 2 4 2) (baseM 0)) (·.reg 2) = some 0xFFFF8899 ∧
    nextOf (exec (.lh 2 4 1) (baseM 0)) (fun t => (t.reg 2, entry t)) = some (0, entered 0x10) := by decide

theorem test_lhu :
    nextOf (exec (.lhu 2 4 0) (baseM 0)) (·.reg 2) = some 0x0000AABB ∧
    nextOf (exec (.lhu 2 4 1) (baseM 0)) (fun t => (t.reg 2, entry t)) = some (0, entered 0x10) := by decide

theorem test_lw :
    nextOf (exec (.lw 2 4 0xFFFC) (baseM 4)) (·.reg 2) = some 0x8899AABB ∧
    nextOf (exec (.lw 4 4 1) (baseM 0)) (fun t => (t.reg 4, entry t)) = some (0, entered 0x10) := by decide

/-- Mirrors, the peripheral stub, an unmapped address, and alignment checked first (part 2.8). -/
theorem test_lw_bus :
    nextOf (exec (.lw 2 4 0) ((baseM 0).setReg 4 0xA0002000)) (·.reg 2) = some 0x8899AABB ∧
    nextOf (exec (.lw 2 4 0) ((baseM 0).setReg 4 0x1F801070)) (·.reg 2) = some 0 ∧
    nextOf (exec (.lw 2 4 0) ((baseM 0).setReg 4 0x00200000)) (fun t => (t.reg 2, t.halt)) = some (0x11223344, .halted (.unmappedAddress 0x00200000 .load)) ∧
    nextOf (exec (.lw 2 4 2) ((baseM 0).setReg 4 0x00200000)) (fun t => (t.reg 2, t.cause, t.halt)) = some (0, 0x10, .running) := by decide

theorem test_lwl :
    nextOf (exec (.lwl 2 4 0) (baseM 0)) (·.reg 2) = some 0xBB223344 ∧
    nextOf (exec (.lwl 2 4 1) (baseM 0)) (·.reg 2) = some 0xAABB3344 ∧
    nextOf (exec (.lwl 2 4 2) (baseM 0)) (·.reg 2) = some 0x99AABB44 ∧
    nextOf (exec (.lwl 2 4 3) (baseM 0)) (·.reg 2) = some 0x8899AABB := by decide

theorem test_lwr :
    nextOf (exec (.lwr 2 4 0) (baseM 0)) (·.reg 2) = some 0x8899AABB ∧
    nextOf (exec (.lwr 2 4 1) (baseM 0)) (·.reg 2) = some 0x118899AA ∧
    nextOf (exec (.lwr 2 4 2) (baseM 0)) (·.reg 2) = some 0x11228899 ∧
    nextOf (exec (.lwr 2 4 3) (baseM 0)) (·.reg 2) = some 0x11223388 := by decide

theorem test_sb :
    nextOf (exec (.sb 2 4 2) (baseM 0)) (ramWord · 0x2000) = some 0x8844AABB ∧
    nextOf (exec (.sb 2 4 0) ((baseM 0).setCp0Word 12 0x00010000)) (ramWord · 0x2000) = some 0x8899AABB := by decide

theorem test_sh :
    nextOf (exec (.sh 2 4 2) (baseM 0)) (ramWord · 0x2000) = some 0x3344AABB ∧
    nextOf (exec (.sh 2 4 1) (baseM 0)) (fun t => (ramWord t 0x2000, entry t)) = some (0x8899AABB, entered 0x14) := by decide

theorem test_sw :
    nextOf (exec (.sw 2 4 4) (baseM 0)) (fun t => (ramWord t 0x2000, ramWord t 0x2004)) = some (0x8899AABB, 0x11223344) ∧
    nextOf (exec (.sw 2 4 2) (baseM 0)) entry = some (entered 0x14) := by decide

/-- ROM ignores, the scratchpad is not isolated, an unmapped store halts, a stored zero leaves the list (part 2.8). -/
theorem test_sw_bus :
    nextOf (exec (.sw 2 4 0) ((baseM 0).setReg 4 0xBFC00010)) (fun t => (t.rom, t.halt)) = some ([], .running) ∧
    nextOf (exec (.sw 2 4 0) (((baseM 0).setReg 4 0x1F800000).setCp0Word 12 0x00010000)) (fun t => readLE t.scratch 0 .word) = some 0x11223344 ∧
    nextOf (exec (.sw 2 4 0) ((baseM 0).setReg 4 0x1F800400)) (·.halt) = some (.halted (.unmappedAddress 0x1F800400 .store)) ∧
    nextOf (exec (.sw 0 4 0) (baseM 0)) (·.ram) = some (Memory.ofBytes [0x77, 0x66, 0x55, 0x44] 0x2004) := by decide

theorem test_swl :
    nextOf (exec (.swl 2 4 0) (baseM 0)) (ramWord · 0x2000) = some 0x8899AA11 ∧
    nextOf (exec (.swl 2 4 1) (baseM 0)) (ramWord · 0x2000) = some 0x88991122 ∧
    nextOf (exec (.swl 2 4 2) (baseM 0)) (ramWord · 0x2000) = some 0x88112233 ∧
    nextOf (exec (.swl 2 4 3) (baseM 0)) (ramWord · 0x2000) = some 0x11223344 := by decide

theorem test_swr :
    nextOf (exec (.swr 2 4 0) (baseM 0)) (ramWord · 0x2000) = some 0x11223344 ∧
    nextOf (exec (.swr 2 4 1) (baseM 0)) (ramWord · 0x2000) = some 0x223344BB ∧
    nextOf (exec (.swr 2 4 2) (baseM 0)) (ramWord · 0x2000) = some 0x3344AABB ∧
    nextOf (exec (.swr 2 4 3) (baseM 0)) (ramWord · 0x2000) = some 0x4499AABB := by decide

/-- The read comes first (D29). -/
theorem test_swl_unmapped :
    nextOf (exec (.swl 2 4 1) ((baseM 0).setReg 4 0x00200000)) (·.halt) = some (.halted (.unmappedAddress 0x00200000 .load)) := by decide

theorem test_mfc0 :
    nextOf (exec (.mfc0 2 14) (base.setCp0Word 14 0x80001234)) (·.reg 2) = some 0x80001234 ∧
    nextOf (exec (.mfc0 2 31) (base.setCp0Word 31 0xA5A5A5A5)) (·.reg 2) = some 0xA5A5A5A5 := by decide

theorem test_mtc0 :
    nextOf (exec (.mtc0 2 12) (base.setReg 2 0xFFFFFFFF)) (·.sr) = some 0xFFFFFFFF ∧
    nextOf (exec (.mtc0 2 8) (base.setReg 2 0xCAFEBABE)) (fun t => (t.cp0Word 8, t.sr)) = some (0xCAFEBABE, 0) := by decide

theorem test_rfe :
    nextOf (exec (.rfe) (base.setCp0Word 12 0xFFFFFFE4)) (·.sr) = some 0xFFFFFFC9 ∧
    nextOf (exec (.rfe) (base.setCp0Word 12 0x00410015)) (·.sr) = some 0x00410005 := by decide

theorem test_syscall :
    nextOf (exec (.syscall) (base.setCp0Word 12 0x0000000F)) (fun t => (t.sr, entry t)) = some (0x0000003C, entered 0x20) ∧
    nextOf (exec (.syscall) (base.setCp0Word 12 0x00400003)) (fun t => (t.sr, t.pc, t.nextPc)) = some (0x0040000C, 0xBFC00180, 0xBFC00184) := by decide

/-! ## The step (part 2.9, 2.11, 2.12; program P5) -/

theorem test_step_addiu :
    nextOf (step (before 0x24020005)) (fun t => (t.reg 2, t.currentPc, t.pc, t.nextPc)) =
      some (5, 0x80001000, 0x80001004, 0x80001008) := by decide

theorem test_step_misaligned :
    nextOf (step { (before 0).setCp0Word 12 1 with pc := 0x80003002, currentPc := 0x80001004 })
      (fun t => (t.sr, entry t, t.currentPc)) = some (4, entered 0x10, 0x80001004) := by decide

theorem test_step_unmapped :
    nextOf (step { before 0 with pc := 0x00200000, nextPc := 0x00200004 }) (fun t => (t.halt, t.pc, t.nextPc)) =
      some (.halted (.unmappedAddress 0x00200000 .fetch), 0x00200000, 0x00200004) := by decide

theorem test_step_unimplemented :
    nextOf (step (before 0x0000000D)) (fun t => (t.halt, t.pc, t.nextPc)) =
      some (.halted (.unimplementedOpcode 0x0000000D 0x80001000), 0x80001004, 0x80001008) := by decide

theorem test_step_peripheral :
    nextOf (step { before 0 with pc := 0x1F801070, nextPc := 0x1F801074 }) (fun t => (t.pc, t.nextPc, t.devCalls)) =
      some (0x1F801074, 0x1F801078, [.load .irq .word 0x1F801070]) := by decide

/-- A syscall in a taken delay slot (part 2.10). -/
theorem test_step_slot_syscall :
    nextOf (step { before 0x0000000C with nextPc := 0x80003000 }) entry =
      some (0x20, 0x80000FFC, 0x80000080, 0x80000084) := by decide

theorem test_step_latched :
    step { before 0 with halt := .halted (.unmappedAddress 0 .load) } = .fault (.latched (.unmappedAddress 0 .load)) := rfl

/-- Program P5 after its first step. -/
theorem test_step_bios :
    nextOf (step { State.reset with rom := Memory.ofBytes [0x40, 0x00, 0x08, 0x3C] 0 })
      (fun t => (t.reg 8, t.currentPc, t.pc, t.nextPc)) = some (0x00400000, 0xBFC00000, 0xBFC00004, 0xBFC00008) := by decide

theorem test_withFetchWord :
    nextOf (step (State.reset.withFetchWord 32 0x3C080040)) (·.reg 8) = some 0x00400000 ∧
    nextOf (step ({ State.reset with pc := 2 }.withFetchWord 32 0x3C080040)) (·.reg 8) = some 0x00400000 := by decide

/-- The two open forms (log 8, 9): what is fixed about them. -/
theorem test_free_choice_counts :
    nextOf (exec (.jalr 4 4) (base45 0x80003000 0)) (fun t => (t.reg 4, t.draws)) = some (0x80001008, 1) ∧
    nextOf (exec (.bltzal 31 4) base) (fun t => (t.reg 31, t.draws)) = some (0x80001008, 1) := by decide

/-! ## Witnesses: concrete states and operands that meet the hypotheses of each statement, clause by clause -/

/-- `base` with the peripheral backends an oracle. -/
def oracleBase : State := { base with params := { defaultParams with dev := .oracle } }

/-- 95_test_vectors.md T7: `jr $31` at 0x80001000 and an `add` that overflows in its slot. -/
def jrThenAdd : State :=
  { (((before 0).setReg 31 0x80003000).setReg 4 0x7FFFFFFF).setReg 5 1 with
    ram := writeLE (writeLE [] 0x1000 .word 0x03E00008) 0x1004 .word 0x00851020 }

theorem witness_SecondResetKeepsTheRest : (11 : Reg) ≠ 12 ∧ (13 : Reg) ≠ 12 := by decide

theorem witness_FirstStepRunsBiosWord :
    ([] : List Byte).length ≠ 0x80000 ∧
    ∃ h : (List.replicate 0x80000 (0 : Byte)).length = 0x80000,
      decode (wordOfBytes (List.replicate 0x80000 (0 : Byte))[0] (List.replicate 0x80000 (0 : Byte))[1]
        (List.replicate 0x80000 (0 : Byte))[2] (List.replicate 0x80000 (0 : Byte))[3]) = .instr (.sll 0 0 0) := by
  refine ⟨by decide, List.length_replicate, ?_⟩
  simp only [List.getElem_replicate]
  decide

theorem witness_DecodeAgreesWithOpcodeTable :
    ∃ r ∈ opcodeTable, (0x421FFFD0 : Word) &&& r.mask = r.pattern ∧ r.mnemonic = Instr.rfe.mnemonic ∧
      decode 0x421FFFD0 = .instr .rfe :=
  ⟨⟨"rfe", 0x42000010, 0xFFE0003F, 0x00000000⟩, by decide, by decide, by decide, by decide⟩

theorem witness_OpcodeRowsExclusive :
    ∃ r ∈ opcodeTable, ∃ q ∈ opcodeTable, (0x04910003 : Word) &&& r.mask = r.pattern ∧ 0x04910003 &&& q.mask = q.pattern :=
  ⟨⟨"bgezal", 0x04110000, 0xFC1F0000, 0x03E0FFFF⟩, by decide, ⟨"bgezal", 0x04110000, 0xFC1F0000, 0x03E0FFFF⟩,
    by decide, by decide, by decide⟩

theorem witness_DecodeIgnoresUnusedBits :
    decode 0x3FE2FFFF = .instr (.lui 2 0xFFFF) ∧ encode (.lui 2 0xFFFF) = 0x3C02FFFF ∧
      (0x3FE2FFFF : Word) &&& ((Instr.lui 2 0xFFFF).row.mask ||| (Instr.lui 2 0xFFFF).row.operands) = 0x3C02FFFF := by
  decide

theorem witness_StepRunsDecodedInstruction_array :
    (before 0x24020005).halt = .running ∧ Reaches (before 0x24020005) (before 0x24020005).pc .word .ram ∧
      decodeBytes [(before 0x24020005).cell .ram (localIndex .ram (before 0x24020005).pc),
        (before 0x24020005).cell .ram (localIndex .ram (before 0x24020005).pc + 1),
        (before 0x24020005).cell .ram (localIndex .ram (before 0x24020005).pc + 2),
        (before 0x24020005).cell .ram (localIndex .ram (before 0x24020005).pc + 3)] = (.instr (.addiu 2 0 5), []) :=
  ⟨rfl, ⟨by decide, by decide⟩, by decide⟩

theorem witness_StepRunsDecodedInstruction_stub :
    base.halt = .running ∧ aligned 0x1F801070 .word = true ∧
      classify base.params.regions 0x1F801070 = some (.dev .irq) ∧ base.params.dev = .stub := by decide

/-- Whatever word the oracle answers, one of the two clauses applies to it. -/
theorem witness_StepRunsDecodedInstruction_oracle :
    oracleBase.halt = .running ∧ aligned 0x1F801070 .word = true ∧
      classify oracleBase.params.regions 0x1F801070 = some (.dev .irq) ∧ oracleBase.params.dev = .oracle ∧
      ((∃ i, decode (Config.devLoad oracleBase.draws .irq .word 0x1F801070) = .instr i) ∨
        ∃ why, decode (Config.devLoad oracleBase.draws .irq .word 0x1F801070) = .unimplemented why) := by
  refine ⟨by decide, by decide, by decide, by decide, ?_⟩
  cases decode (Config.devLoad oracleBase.draws .irq .word 0x1F801070) with
  | instr i => exact .inl ⟨i, rfl⟩
  | unimplemented why => exact .inr ⟨why, rfl⟩

theorem witness_MisalignedFetchTraps :
    base.halt = .running ∧ (0x80003001 : Word).toNat % 4 ≠ 0 ∧ (0x00200002 : Word).toNat % 4 ≠ 0 ∧
      base.currentPc.toNat % 4 = 0 := by decide

theorem witness_UnmappedFetchHalts :
    base.halt = .running ∧ (0x00200000 : Word).toNat % 4 = 0 ∧ classify base.params.regions 0x00200000 = none ∧
      (0xFFFFFFFC : Word).toNat % 4 = 0 ∧ classify base.params.regions 0xFFFFFFFC = none := by decide

theorem witness_UnimplementedEncodingHalts :
    (before 0x0000000D).halt = .running ∧ fetch (before 0x0000000D) = .word 0x0000000D (before 0x0000000D) ∧
      decode 0x0000000D = .unimplemented (.special 0x0D) := by decide

theorem witness_StepExistsExactlyWhileRunning :
    base.halt = .running ∧ (base.setHalted (.unmappedAddress 0x00200000 .load)).halt =
      .halted (.unmappedAddress 0x00200000 .load) := by decide

theorem witness_OnlyTransfersAndExceptionsRedirect :
    (∃ t, exec (.addu 2 4 5) base = .next t) ∧ isTransfer (.addu 2 4 5) = false ∧
      (∃ t, exec (.beq 0 0 3) base = .next t) ∧ isTransfer (.beq 0 0 3) = true ∧
      (∃ t, exec .syscall base = .next t) ∧ mayRaise .syscall = true :=
  ⟨⟨_, rfl⟩, rfl, ⟨_, rfl⟩, rfl, ⟨_, rfl⟩, rfl⟩

theorem witness_StepKeepsInvariant : (before 0x24020005).Inv ∧ ∃ t, step (before 0x24020005) = .next t :=
  ⟨⟨by decide, by decide, by decide, by decide⟩, _, rfl⟩

/-- A store to ROM is among the steps. -/
theorem witness_RomAndParametersNeverChange :
    nextOf (step ((before 0xAC820000).setReg 4 0xBFC00010)) (·.halt) = some .running := by decide

theorem witness_Cp0StorageWordsOnlyByMtc0 :
    (8 : Reg) ≠ 12 ∧ (8 : Reg) ≠ 13 ∧ (8 : Reg) ≠ 14 ∧ (before 0x40824000).cp0Word 8 = 0 ∧
      nextOf (step ((before 0x40824000).setReg 2 0xCAFEBABE)) (·.cp0Word 8) = some 0xCAFEBABE := by decide

theorem witness_HiLoOnlyByMultiplyAndDivide :
    (before 0x00850018).hi = 0 ∧ (before 0x00850018).lo = 0 ∧
      nextOf (step (((before 0x00850018).setReg 4 2).setReg 5 3)) (fun t => (t.hi, t.lo)) = some (0, 6) := by decide

theorem witness_HaltingStepChangesNothingElse :
    nextOf (step (before 0x0000000D)) (·.halt) = some (.halted (.unimplementedOpcode 0x0000000D 0x80001000)) ∧
      nextOf (step ((before 0x8C820000).setReg 4 0x00200000)) (·.halt) =
        some (.halted (.unmappedAddress 0x00200000 .load)) ∧
      nextOf (step { before 0 with pc := 0x00200000 }) (·.halt) =
        some (.halted (.unmappedAddress 0x00200000 .fetch)) := by decide

theorem witness_OverflowInJrSlotRecordsJump :
    jrThenAdd.halt = .running ∧ jrThenAdd.nextPc = jrThenAdd.pc + 4 ∧ jrThenAdd.nextInstr = some (.jr 31) ∧
      jrThenAdd.reg 31 ≠ jrThenAdd.pc + 8 ∧
      nextOf (step jrThenAdd) (fun t => (t.nextInstr, t.reg 4, t.reg 5)) =
        some (some (.add 2 4 5), 0x7FFFFFFF, 1) ∧
      SumOverflows 0x7FFFFFFF 1 :=
  ⟨by decide, by decide, by decide, by decide, by decide, .inl ⟨by decide, by decide⟩⟩

theorem witness_OnlyListedInstructionsRaise :
    (∃ t, exec (.lb 2 4 0) base = .next t) ∧ mayRaise (.lb 2 4 0) = false ∧
      (∀ rt rd, Instr.lb 2 4 0 ≠ .mtc0 rt rd) ∧ Instr.lb 2 4 0 ≠ .rfe :=
  ⟨⟨_, rfl⟩, rfl, (fun _ _ h => by cases h), (fun h => by cases h)⟩

theorem witness_SignedAddsSumOrTrap :
    ¬ SumOverflows 0x7FFFFFFE 1 ∧ SumOverflows 0x7FFFFFFF 1 ∧ ¬ SumOverflows 0x80000000 0 ∧
      SumOverflows 0x80000000 0xFFFFFFFF ∧ ¬ SumOverflows 0x7FFF8000 ((0x7FFF : BitVec 16).signExtend 32) ∧
      SumOverflows 0x7FFF8001 ((0x7FFF : BitVec 16).signExtend 32) ∧
      SumOverflows 0x80000000 ((0xFFFF : BitVec 16).signExtend 32) := by
  unfold SumOverflows
  decide

theorem witness_SignedDivision : (base45 7 0).reg 5 = 0 ∧ (base45 7 0xFFFFFFFF).reg 5 ≠ 0 := by decide

theorem witness_UnsignedDivision : (base45 7 0).reg 5 = 0 ∧ (base45 7 1).reg 5 ≠ 0 := by decide

theorem witness_EqualityBranches :
    (base45 7 7).reg 4 = (base45 7 7).reg 5 ∧ (base45 7 8).reg 4 ≠ (base45 7 8).reg 5 := by decide

/-- Each condition and its negation, at 0, 1, -1 and the extremes. -/
theorem witness_SignBranches :
    ((base45 0 0).reg 4).toInt ≤ 0 ∧ 0 < ((base45 1 0).reg 4).toInt ∧ ((base45 0xFFFFFFFF 0).reg 4).toInt < 0 ∧
      ((base45 0x80000000 0).reg 4).toInt < 0 ∧ 0 < ((base45 0x7FFFFFFF 0).reg 4).toInt ∧
      0 ≤ ((base45 0 0).reg 4).toInt := by decide

theorem witness_LinkBranches :
    (30 : Reg) ≠ 31 ∧ (0 : Reg) ≠ 31 ∧ ((base.setReg 30 0xFFFFFFFF).reg 30).toInt < 0 ∧ 0 ≤ (base.reg 0).toInt := by
  decide

theorem witness_JalrLinksAndJumps :
    ((31 : Reg) ≠ 4 ∨ (4 : Reg) = 0) ∧ ((0 : Reg) ≠ 4 ∨ (4 : Reg) = 0) ∧ ((0 : Reg) ≠ 0 ∨ (0 : Reg) = 0) := by decide

theorem witness_JalrThroughItsLink : (31 : Reg) ≠ 0 ∧ (1 : Reg) ≠ 0 := by decide

/-- The last byte of each array. -/
theorem witness_ByteLoads :
    classify base.params.regions (effAddr (base.setReg 4 0x80200000) 4 0xFFFF) = some (.array .ram) ∧
      classify base.params.regions (effAddr (base.setReg 4 0xBFC80000) 4 0xFFFF) = some (.array .rom) ∧
      classify base.params.regions (effAddr (base.setReg 4 0x1F800400) 4 0xFFFF) = some (.array .scratch) := by decide

theorem witness_AlignedHalfAndWordLoads :
    Reaches (base.setReg 4 0x80200000) (effAddr (base.setReg 4 0x80200000) 4 0xFFFE) .half .ram ∧
      Reaches (base.setReg 4 0x80200000) (effAddr (base.setReg 4 0x80200000) 4 0xFFFC) .word .ram ∧
      Reaches (base.setReg 4 0xBFC00000) (effAddr (base.setReg 4 0xBFC00000) 4 0) .word .rom :=
  ⟨⟨by decide, by decide⟩, ⟨by decide, by decide⟩, ⟨by decide, by decide⟩⟩

theorem witness_MisalignedLoadsTrap :
    (effAddr (baseM 0) 4 1).toNat % 2 ≠ 0 ∧ (effAddr (baseM 0) 4 1).toNat % 4 ≠ 0 ∧
      (effAddr (baseM 0) 4 2).toNat % 4 ≠ 0 ∧ (effAddr (baseM 0) 4 3).toNat % 4 ≠ 0 := by decide

theorem witness_UnmappedAccessHalts :
    accessOf (base.setReg 4 0x1F800400) (.lb 2 4 0) = some (0x1F800400, .byte, .load) ∧
      accessOf (base.setReg 4 0x1F800400) (.sw 2 4 0) = some (0x1F800400, .word, .store) ∧
      accessOf (base.setReg 4 0x1F800400) (.swl 2 4 1) = some (0x1F800400, .word, .load) ∧
      aligned 0x1F800400 .byte = true ∧ aligned 0x1F800400 .word = true ∧
      classify base.params.regions 0x1F800400 = none := by decide

/-- The stub answers 0; the oracle answers some value of the width asked for. -/
theorem witness_PeripheralLoads :
    classify base.params.regions (effAddr (base.setReg 4 0x1F801070) 4 0) = some (.dev .irq) ∧
      classify base.params.regions (alignedAddr (effAddr (base.setReg 4 0x1F801070) 4 3)) = some (.dev .irq) ∧
      (effAddr (base.setReg 4 0x1F801070) 4 0).toNat % 4 = 0 ∧ (effAddr (base.setReg 4 0x1F801070) 4 2).toNat % 2 = 0 ∧
      (∀ n, DevAnswers base .irq n 0x1F801070 0 0) ∧
      (∀ n, ∃ a, DevAnswers oracleBase .irq n 0x1F801070 a 1) := by
  refine ⟨by decide, by decide, by decide, by decide, fun n => .inl ⟨rfl, rfl, rfl⟩, fun n => ?_⟩
  refine ⟨BitVec.ofNat 32 ((Config.devLoad oracleBase.draws .irq n 0x1F801070).toNat % 2 ^ (8 * widthBytes n)),
    .inr ⟨rfl, ?_, rfl⟩⟩
  rw [BitVec.toNat_ofNat]
  apply Nat.mod_eq_of_lt
  have h := (Config.devLoad oracleBase.draws .irq n 0x1F801070).isLt
  exact Nat.lt_of_le_of_lt (Nat.mod_le _ _) h

theorem witness_PeripheralStores :
    classify base.params.regions (effAddr (base.setReg 4 0x1F801814) 4 0) = some (.dev .gpu) ∧
      classify base.params.regions (alignedAddr (effAddr (base.setReg 4 0x1F801814) 4 3)) = some (.dev .gpu) ∧
      (effAddr (base.setReg 4 0x1F801814) 4 0).toNat % 4 = 0 ∧ (effAddr (base.setReg 4 0x1F801814) 4 2).toNat % 2 = 0 ∧
      DevAnswers base .gpu .word 0x1F801814 0 0 :=
  ⟨by decide, by decide, by decide, by decide, .inl ⟨rfl, rfl, rfl⟩⟩

theorem witness_UnalignedLoadMerges :
    classify (baseM 0).params.regions (alignedAddr (effAddr (baseM 0) 4 0)) = some (.array .ram) ∧
      classify (baseM 0).params.regions (alignedAddr (effAddr (baseM 0) 4 3)) = some (.array .ram) ∧
      (effAddr (baseM 0) 4 0).toNat % 4 = 0 ∧ (effAddr (baseM 0) 4 3).toNat % 4 = 3 := by decide

theorem witness_AlignedStoresOrTrap :
    (baseM 0).arraysWf = true ∧ TakesStores (baseM 0) .ram ∧ TakesStores (baseM 0) .scratch ∧
      Reaches (baseM 0) (effAddr (baseM 0) 4 3) .byte .ram ∧ Reaches (baseM 0) (effAddr (baseM 0) 4 2) .half .ram ∧
      Reaches (baseM 0) (effAddr (baseM 0) 4 0) .word .ram ∧
      Reaches (base.setReg 4 0x1F8003FC) (effAddr (base.setReg 4 0x1F8003FC) 4 0) .word .scratch ∧
      (effAddr (baseM 0) 4 1).toNat % 2 ≠ 0 ∧ (effAddr (baseM 0) 4 2).toNat % 4 ≠ 0 :=
  ⟨by decide, .inr ⟨rfl, by decide⟩, .inl rfl, ⟨by decide, by decide⟩, ⟨by decide, by decide⟩,
    ⟨by decide, by decide⟩, ⟨by decide, by decide⟩, by decide, by decide⟩

theorem witness_DiscardedStores :
    (((baseM 0).setCp0Word 12 0x00010000).cacheIsolated = true) ∧
      Reaches ((baseM 0).setCp0Word 12 0x00010000) (effAddr (baseM 0) 4 0) .word .ram ∧
      Reaches (baseM 0) 0xBFC00010 .byte .rom ∧ Reaches (baseM 0) 0xBFC00010 .half .rom ∧
      Reaches (baseM 0) (alignedAddr 0xBFC00013) .word .rom :=
  ⟨by decide, ⟨by decide, by decide⟩, ⟨by decide, by decide⟩, ⟨by decide, by decide⟩, ⟨by decide, by decide⟩⟩

theorem witness_UnalignedStoreMerges :
    (baseM 0).arraysWf = true ∧ TakesStores (baseM 0) .ram ∧
      classify (baseM 0).params.regions (alignedAddr (effAddr (baseM 0) 4 0)) = some (.array .ram) ∧
      classify (baseM 0).params.regions (alignedAddr (effAddr (baseM 0) 4 3)) = some (.array .ram) :=
  ⟨by decide, .inr ⟨rfl, by decide⟩, by decide, by decide⟩

/-- The unaligned word at offset 1, across two aligned words, and the aligned one at offset 0. -/
theorem witness_UnalignedLoadPair :
    (2 : Reg) ≠ 0 ∧ (4 : Reg) ≠ 2 ∧ effAddr (baseM 0) 4 4 = effAddr (baseM 0) 4 1 + 3 ∧
      classify (baseM 0).params.regions (alignedAddr (effAddr (baseM 0) 4 1)) = some (.array .ram) ∧
      classify (baseM 0).params.regions (alignedAddr (effAddr (baseM 0) 4 4)) = some (.array .ram) ∧
      effAddr (baseM 0) 4 3 = effAddr (baseM 0) 4 0 + 3 ∧
      classify (baseM 0).params.regions (alignedAddr (effAddr (baseM 0) 4 0)) = some (.array .ram) ∧
      classify (baseM 0).params.regions (alignedAddr (effAddr (baseM 0) 4 3)) = some (.array .ram) := by decide

/-- The word at offset 3, the furthest across two aligned words. -/
theorem witness_UnalignedStorePair :
    (baseM 0).arraysWf = true ∧ TakesStores (baseM 0) .ram ∧
      effAddr (baseM 0) 4 6 = effAddr (baseM 0) 4 3 + 3 ∧ (effAddr (baseM 0) 4 3).toNat % 4 = 3 ∧
      classify (baseM 0).params.regions (alignedAddr (effAddr (baseM 0) 4 3)) = some (.array .ram) ∧
      classify (baseM 0).params.regions (alignedAddr (effAddr (baseM 0) 4 6)) = some (.array .ram) :=
  ⟨by decide, .inr ⟨rfl, by decide⟩, by decide, by decide, by decide, by decide⟩

/-- The aligned word at offset 0, where both instructions write the same four bytes. -/
theorem witness_UnalignedStorePair_aligned :
    (baseM 0).arraysWf = true ∧ TakesStores (baseM 0) .ram ∧
      effAddr (baseM 0) 4 3 = effAddr (baseM 0) 4 0 + 3 ∧ (effAddr (baseM 0) 4 0).toNat % 4 = 0 ∧
      classify (baseM 0).params.regions (alignedAddr (effAddr (baseM 0) 4 0)) = some (.array .ram) ∧
      classify (baseM 0).params.regions (alignedAddr (effAddr (baseM 0) 4 3)) = some (.array .ram) :=
  ⟨by decide, .inr ⟨rfl, by decide⟩, by decide, by decide, by decide, by decide⟩

theorem witness_RamMirrorsAlias :
    paramsWf (baseM 0).params = true ∧ (baseM 0).arraysWf = true ∧ (baseM 0).cacheIsolated = false ∧
      ((baseM 0).setCp0Word 12 0x00010000).cacheIsolated = true ∧ (0x1FFFFC : Word).toNat < 0x200000 ∧
      (0x1FFFFC : Word).toNat % widthBytes .word = 0 ∧ (0 : Word).toNat % widthBytes .half = 0 := by decide

/-- The store overwrites the very next instruction. -/
theorem witness_StoreSeenByNextFetch :
    (base.setReg 4 0xA0001000).arraysWf = true ∧ TakesStores (base.setReg 4 0xA0001000) .ram ∧
      Reaches (base.setReg 4 0xA0001000) (effAddr (base.setReg 4 0xA0001000) 4 4) .word .ram ∧
      Reaches (base.setReg 4 0xA0001000) (base.setReg 4 0xA0001000).pc .word .ram ∧
      localIndex .ram (base.setReg 4 0xA0001000).pc = localIndex .ram (effAddr (base.setReg 4 0xA0001000) 4 4) ∧
      ∃ t, exec (.sw 2 4 4) (base.setReg 4 0xA0001000) = .next t :=
  ⟨by decide, .inr ⟨rfl, by decide⟩, ⟨by decide, by decide⟩, ⟨by decide, by decide⟩, by decide, _, rfl⟩

end Sys2Proof.Tests
end

section
/-! What each operation, and then each instruction, does to the three program counters (00_scope.md R12): the counters
are kept, or a branch or jump writes `next_pc`, or the exception entry writes `pc` and `next_pc`. -/

namespace Sys2Proof.Machine

/-! ## The operations that keep the program counters -/

theorem SamePcs.trans {s t u : State} (h : SamePcs s t) (k : SamePcs t u) : SamePcs s u :=
  ⟨k.1.trans h.1, k.2.1.trans h.2.1, k.2.2.trans h.2.2⟩

theorem samePcs_setReg (s : State) (r : Reg) (v : Word) : SamePcs s (s.setReg r v) := by simp [SamePcs]

theorem samePcs_setHiLo (s : State) (hi lo : Word) : SamePcs s (s.setHiLo hi lo) := ⟨rfl, rfl, rfl⟩

theorem samePcs_setCp0Word (s : State) (k : Reg) (v : Word) : SamePcs s (s.setCp0Word k v) := ⟨rfl, rfl, rfl⟩

theorem samePcs_memRead_aligned {kind : AccessKind} {addr : Word} {n : Width} {s : State}
    (h : aligned addr n = true) : SamePcs s (memRead kind addr n s).state := by
  obtain ⟨hpc, hnext, -⟩ := memRead_frame_aligned (kind := kind) (s := s) h
  obtain ⟨-, -, -, -, -, -, -, hcur⟩ := memRead_frame kind addr n s
  exact ⟨hpc, hnext, hcur⟩

theorem samePcs_memWrite_aligned {addr : Word} {n : Width} {v : Word} {s : State} (h : aligned addr n = true) :
    SamePcs s (memWrite addr n v s) := by
  obtain ⟨hpc, hnext, -⟩ := memWrite_frame_aligned (v := v) (s := s) h
  obtain ⟨-, -, -, -, -, -, hcur⟩ := memWrite_frame addr n v s
  exact ⟨hpc, hnext, hcur⟩

/-- The end of a load writes a register at most. -/
theorem samePcs_finishLoad (rt : Reg) (extend : Word → Word) (r : ReadResult) :
    SamePcs r.state (finishLoad rt extend r) := by
  cases r with
  | value v t => exact samePcs_setReg t rt (extend v)
  | halted t => exact ⟨rfl, rfl, rfl⟩

theorem samePcs_load_aligned {addr : Word} {n : Width} (rt : Reg) (extend : Word → Word) (s : State)
    (h : aligned addr n = true) : SamePcs s (finishLoad rt extend (memRead .load addr n s)) :=
  (samePcs_memRead_aligned h).trans (samePcs_finishLoad rt extend _)

/-- `swl` and `swr` read and write an aligned word, so neither access can trap. -/
theorem samePcs_finishMerge (ea : Word) (merge : Word → Word) (s : State) :
    SamePcs s (finishMerge (alignedAddr ea) merge (memRead .load (alignedAddr ea) .word s)) := by
  have hread : SamePcs s (memRead .load (alignedAddr ea) .word s).state :=
    samePcs_memRead_aligned (aligned_alignedAddr ea)
  revert hread
  cases memRead .load (alignedAddr ea) .word s with
  | value v t => exact fun hread => hread.trans (samePcs_memWrite_aligned (aligned_alignedAddr ea))
  | halted t => exact id

/-! ## The operations that may take an exception -/

/-- `pc` and `next_pc` are those of the handler that the status register of `s` selects (R224 (1), R225). -/
def EntersHandler (s t : State) : Prop := t.pc = handlerAddress s ∧ t.nextPc = handlerAddress s + 4

theorem entersHandler_raiseExc (c : ExcCode) (s : State) : EntersHandler s (raiseExc c s) := ⟨rfl, rfl⟩

theorem EntersHandler.trans_samePcs {s t u : State} (h : EntersHandler s t) (k : SamePcs t u) : EntersHandler s u :=
  ⟨k.1.trans h.1, k.2.1.trans h.2⟩

/-- The counters are kept or the exception entry writes them: nothing else can come of a trapping operation. -/
def KeepsPcsOrTraps (s t : State) : Prop := SamePcs s t ∨ EntersHandler s t

theorem keepsPcsOrTraps_addTrapping (rd : Reg) (x y : Word) (s : State) :
    KeepsPcsOrTraps s (addTrapping rd x y s) := by
  unfold addTrapping
  split
  · exact .inr (entersHandler_raiseExc .ov s)
  · exact .inl (samePcs_setReg s rd _)

theorem keepsPcsOrTraps_load (rt : Reg) (extend : Word → Word) (addr : Word) (n : Width) (s : State) :
    KeepsPcsOrTraps s (finishLoad rt extend (memRead .load addr n s)) := by
  cases h : aligned addr n with
  | true => exact .inl (samePcs_load_aligned rt extend s h)
  | false =>
    rw [memRead_misaligned h]
    exact .inr ((entersHandler_raiseExc .adEL s).trans_samePcs (samePcs_setReg _ rt _))

theorem keepsPcsOrTraps_memWrite (addr : Word) (n : Width) (v : Word) (s : State) :
    KeepsPcsOrTraps s (memWrite addr n v s) := by
  cases h : aligned addr n with
  | true => exact .inl (samePcs_memWrite_aligned h)
  | false =>
    rw [memWrite_misaligned h]
    exact .inr (entersHandler_raiseExc .adES s)

/-! ## The transfers of control -/

@[simp] theorem branchIf_pc (cond : Bool) (imm : BitVec 16) (s : State) : (branchIf cond imm s).pc = s.pc := rfl

@[simp] theorem branchLinkIf_pc (cond : Word → Bool) (rs : Reg) (imm : BitVec 16) (s : State) :
    (branchLinkIf cond rs imm s).pc = s.pc := by
  unfold branchLinkIf
  split <;> simp [writeLink]

/-! ## Every instruction -/

/-- What an instruction can do to `pc` and `next_pc`, by its class: a transfer keeps `pc`, an instruction with a raising
condition may enter a handler, and every other one keeps both. -/
theorem exec_pcs (i : Instr) (s : State) :
    ∃ t, exec i s = .next t ∧
      ((isTransfer i = true ∧ t.pc = s.pc) ∨ (mayRaise i = true ∧ KeepsPcsOrTraps s t) ∨ SamePcs s t) := by
  cases i with
  | j | jr => exact ⟨_, rfl, .inl ⟨rfl, rfl⟩⟩
  | jal => exact ⟨_, rfl, .inl ⟨rfl, by simp⟩⟩
  | jalr => exact ⟨_, rfl, .inl ⟨rfl, by split <;> simp⟩⟩
  | beq | bne | blez | bgtz | bltz | bgez => exact ⟨_, rfl, .inl ⟨rfl, branchIf_pc _ _ s⟩⟩
  | bltzal | bgezal => exact ⟨_, rfl, .inl ⟨rfl, branchLinkIf_pc _ _ _ s⟩⟩
  | add | addi => exact ⟨_, rfl, .inr (.inl ⟨rfl, keepsPcsOrTraps_addTrapping _ _ _ s⟩)⟩
  | lh | lhu | lw => exact ⟨_, rfl, .inr (.inl ⟨rfl, keepsPcsOrTraps_load _ _ _ _ s⟩)⟩
  | sh | sw => exact ⟨_, rfl, .inr (.inl ⟨rfl, keepsPcsOrTraps_memWrite _ _ _ s⟩)⟩
  | syscall => exact ⟨_, rfl, .inr (.inl ⟨rfl, .inr (entersHandler_raiseExc .sys s)⟩)⟩
  | lb | lbu => exact ⟨_, rfl, .inr (.inr (samePcs_load_aligned _ _ s (aligned_byte _)))⟩
  | lwl | lwr => exact ⟨_, rfl, .inr (.inr (samePcs_load_aligned _ _ s (aligned_alignedAddr _)))⟩
  | sb => exact ⟨_, rfl, .inr (.inr (samePcs_memWrite_aligned (aligned_byte _)))⟩
  | swl | swr => exact ⟨_, rfl, .inr (.inr (samePcs_finishMerge _ _ s))⟩
  | mult | multu => exact ⟨_, rfl, .inr (.inr (samePcs_setHiLo s _ _))⟩
  | div | divu => exact ⟨_, rfl, .inr (.inr (by split <;> exact samePcs_setHiLo s _ _))⟩
  | mtc0 | rfe => exact ⟨_, rfl, .inr (.inr (samePcs_setCp0Word s _ _))⟩
  | sll | srl | sra | sllv | srlv | srav | mfhi | mflo | addu | subu | and | or | xor | nor | slt | sltu | addiu | slti
  | sltiu | andi | ori | xori | lui | mfc0 => exact ⟨_, rfl, .inr (.inr (samePcs_setReg s _ _))⟩

theorem keeps_of_exec {i : Instr} {s t : State} (h : exec i s = .next t) : Keeps s t := by
  obtain ⟨u, hu, hkeeps⟩ := exec_keeps i s
  obtain rfl := Host.Outcome.next.inj (hu.symm.trans h)
  exact hkeeps

theorem pcs_of_exec {i : Instr} {s t : State} (h : exec i s = .next t) :
    (isTransfer i = true ∧ t.pc = s.pc) ∨ (mayRaise i = true ∧ KeepsPcsOrTraps s t) ∨ SamePcs s t := by
  obtain ⟨u, hu, hpcs⟩ := exec_pcs i s
  obtain rfl := Host.Outcome.next.inj (hu.symm.trans h)
  exact hpcs

/-- Settles O14, from what each class of instructions does to the program counters. -/
theorem onlyTransfersAndExceptionsRedirect : Obligations.OnlyTransfersAndExceptionsRedirect := by
  unfold Obligations.OnlyTransfersAndExceptionsRedirect
  intro i s t h
  refine ⟨(keeps_of_exec h).currentPc, ?_⟩
  rcases pcs_of_exec h with ⟨htransfer, hpc⟩ | ⟨hraise, hkept | ⟨hpc, hnext⟩⟩ | hkept
  · exact .inl ⟨hpc, fun hnot => absurd (htransfer.symm.trans hnot) (by decide)⟩
  · exact .inl ⟨hkept.1, fun _ => hkept.2.1⟩
  · exact .inr ⟨hraise, hpc, by rw [hnext, hpc]⟩
  · exact .inl ⟨hkept.1, fun _ => hkept.2.1⟩

end Sys2Proof.Machine
end

section
/-! Bus accesses byte by byte (20_memory.md R52, R53, R65), and the three windows of RAM (R58 rows 1 to 3, R59). -/

namespace Sys2Proof.Machine

/-! ## Words byte by byte -/

theorem getLsbD_truncTo (n : Width) (v : Word) {j : Nat} (hj : j < 32) :
    (truncTo n v).getLsbD j = (decide (j < 8 * widthBytes n) && v.getLsbD j) := by
  cases n with
  | byte | half =>
    simp only [truncTo, BitVec.getLsbD_setWidth, hj, decide_true, Bool.true_and]
    rfl
  | word => simp [truncTo, widthBytes, hj]

theorem byteOf_truncTo (n : Width) (v : Word) {k : Nat} (hk : k < 4) :
    byteOf (truncTo n v) k = if k < widthBytes n then byteOf v k else 0 := by
  apply BitVec.eq_of_getLsbD_eq
  intro j hj
  simp only [byteOf, BitVec.getLsbD_extractLsb', getLsbD_truncTo n v (show 8 * k + j < 32 by omega)]
  split
  · simp [hj, show 8 * k + j < 8 * widthBytes n by omega]
  · simp [show ¬ 8 * k + j < 8 * widthBytes n by omega]

/-- A narrow read is the low part of the four bytes from the index up. -/
theorem readLE_eq_truncTo (m : Memory) (i : Nat) (n : Width) :
    readLE m i n = truncTo n (wordOfBytes (m.read i) (m.read (i + 1)) (m.read (i + 2)) (m.read (i + 3))) := by
  cases n with
  | byte => exact congrArg (BitVec.setWidth 32) BitVec.setWidth_append_eq_right.symm
  | half =>
    refine congrArg (BitVec.setWidth 32) (?_ : _ = (_ ++ m.read (i + 1) ++ m.read i : BitVec (24 + 8)).setWidth 16)
    rw [BitVec.setWidth_append]
    simp only [Nat.reduceLeDiff, dite_false, BitVec.cast_eq]
    exact congrArg (· ++ m.read i) BitVec.setWidth_append_eq_right.symm
  | word => rfl

/-- LE(A, i, n) of R52, byte by byte: the byte at the lowest index is the least significant one. -/
theorem byteOf_readLE (m : Memory) (i : Nat) (n : Width) {k : Nat} (hk : k < 4) :
    byteOf (readLE m i n) k = if k < widthBytes n then m.read (i + k) else 0 := by
  have hbytes : byteOf (wordOfBytes (m.read i) (m.read (i + 1)) (m.read (i + 2)) (m.read (i + 3))) k =
      m.read (i + k) := by
    obtain ⟨h0, h1, h2, h3⟩ := byteOf_wordOfBytes (m.read i) (m.read (i + 1)) (m.read (i + 2)) (m.read (i + 3))
    match k, hk with
    | 0, _ => exact h0
    | 1, _ => exact h1
    | 2, _ => exact h2
    | 3, _ => exact h3
  rw [readLE_eq_truncTo, byteOf_truncTo _ _ hk, hbytes]

/-! ## Accesses that reach an array -/

theorem memRead_of_reaches {s : State} {addr : Word} {n : Width} {a : ArrayId} (kind : AccessKind)
    (h : Reaches s addr n a) :
    ∃ w, memRead kind addr n s = .value w s ∧
      ∀ k, k < 4 → byteOf w k = if k < widthBytes n then s.cell a (localIndex a addr + k) else 0 :=
  ⟨_, memRead_array h.1 h.2, fun _ hk => byteOf_readLE _ _ n hk⟩

theorem arrayStore_of_takesStores {s : State} {a : ArrayId} (addr : Word) (n : Width) (v : Word)
    (h : TakesStores s a) :
    arrayStore a addr n v s = s.setArray a (writeLE (s.array a) (localIndex a addr) n v) := by
  rcases h with rfl | ⟨rfl, hisolated⟩
  · rfl
  · simp [arrayStore, hisolated, State.array]

/-- A store that reaches an array and takes effect writes its bytes there, lowest address first (R53). -/
theorem storesBytes_memWrite {s : State} {addr : Word} {n : Width} {a : ArrayId} (v : Word)
    (hwf : s.arraysWf = true) (htakes : TakesStores s a) (h : Reaches s addr n a) :
    StoresBytes a (localIndex a addr) (widthBytes n) (byteOf v) s (memWrite addr n v s) := by
  obtain ⟨haligned, harray⟩ := h
  rw [memWrite_array haligned harray, arrayStore_of_takesStores addr n v htakes]
  exact {
    cells := cell_store v hwf haligned
    regs := reg_congr (by simp)
    pcs := by simp [SamePcs]
    hiLo := by simp [SameHiLo]
    cp0 := cp0Word_congr (by simp)
    outside := by simp [SameOutside] }

/-- A store to RAM while the cache is isolated changes nothing (R64). -/
theorem memWrite_of_isolated {s : State} {addr : Word} {n : Width} (v : Word) (hisolated : s.cacheIsolated = true)
    (h : Reaches s addr n .ram) : memWrite addr n v s = s := by
  rw [memWrite_array h.1 h.2]
  simp [arrayStore, hisolated]

theorem reaches_memWrite {s : State} {addr addr' : Word} {n n' : Width} {a : ArrayId} (v : Word)
    (h : Reaches s addr n a) : Reaches (memWrite addr' n' v s) addr n a := by
  obtain ⟨-, -, -, -, hparams, -, -⟩ := memWrite_frame addr' n' v s
  exact ⟨h.1, by rw [hparams]; exact h.2⟩

/-! ## The three windows of RAM -/

/-- The document's four rows stand in every admitted address map (R58). -/
theorem mem_regions_of_fixed {p : Params} (hp : paramsWf p = true) {r : Region} (hr : r ∈ fixedRegions) :
    r ∈ p.regions := by
  simp only [paramsWf, regionsWf, Bool.and_eq_true, List.all_eq_true] at hp
  obtain ⟨⟨-, hfixed⟩, -⟩ := hp
  exact List.contains_iff_mem.1 (hfixed r hr)

theorem regionsDisjoint_of_paramsWf {p : Params} (hp : paramsWf p = true) : regionsDisjoint p.regions = true := by
  simp only [paramsWf, regionsWf, Bool.and_eq_true] at hp
  obtain ⟨⟨⟨-, hdisjoint⟩, -⟩, -⟩ := hp
  exact hdisjoint

/-- The base of one of the three windows through which RAM is seen (R59). -/
def IsRamBase (b : Word) : Prop := b = 0x00000000 ∨ b = 0x80000000 ∨ b = 0xA0000000

/-- A RAM base has its row among the fixed ones, is a multiple of RAM's size, and leaves the window inside the address
space. -/
theorem IsRamBase.window {b : Word} (hb : IsRamBase b) :
    (⟨b.toNat, 0x200000, .array .ram⟩ : Region) ∈ fixedRegions ∧ b.toNat % 0x200000 = 0 ∧
      b.toNat + 0x200000 ≤ 2 ^ 32 := by
  rcases hb with rfl | rfl | rfl <;> decide

section
variable {b off : Word} (hb : IsRamBase b) (hoff : off.toNat < 0x200000)
include hb hoff

theorem toNat_ramAddr : (b + off).toNat = b.toNat + off.toNat := by
  obtain ⟨-, -, hfits⟩ := hb.window
  rw [BitVec.toNat_add, Nat.mod_eq_of_lt (by omega)]

/-- An address of a RAM window, masked to 2 MB, is its offset in the window. -/
theorem localIndex_ramAddr : localIndex .ram (b + off) = off.toNat := by
  obtain ⟨-, hmultiple, -⟩ := hb.window
  rw [localIndex, toNat_ramAddr hb hoff]
  simp only [arraySize]
  omega

theorem classify_ramAddr {p : Params} (hp : paramsWf p = true) :
    classify p.regions (b + off) = some (.array .ram) := by
  obtain ⟨hrow, -, -⟩ := hb.window
  refine classify_of_mem (mem_regions_of_fixed hp hrow) (regionsDisjoint_of_paramsWf hp) ?_
  simp only [regionMatches, toNat_ramAddr hb hoff, Bool.and_eq_true, decide_eq_true_eq]
  omega

theorem aligned_ramAddr {n : Width} (ha : off.toNat % widthBytes n = 0) : aligned (b + off) n = true := by
  obtain ⟨-, hmultiple, -⟩ := hb.window
  rw [aligned_iff, toNat_ramAddr hb hoff]
  cases n <;> simp only [widthBytes] at ha ⊢ <;> omega

theorem reaches_ramAddr {s : State} {n : Width} (hp : paramsWf s.params = true)
    (ha : off.toNat % widthBytes n = 0) : Reaches s (b + off) n .ram :=
  ⟨aligned_ramAddr hb hoff ha, classify_ramAddr hb hoff hp⟩

end

/-- Settles O56: an address of any RAM window reaches RAM at its offset, so the two accesses meet at the same bytes. -/
theorem ramMirrorsAlias : Obligations.RamMirrorsAlias := by
  unfold Obligations.RamMirrorsAlias
  intro s b c off v n kind hp hb hc hoff ha
  have hreach : Reaches s (b + off) n .ram := reaches_ramAddr hb hoff hp ha
  have hreach' : Reaches s (c + off) n .ram := reaches_ramAddr hc hoff hp ha
  refine ⟨?_, fun hisolated => memWrite_of_isolated v hisolated hreach, fun hwf hisolated => ?_⟩
  · have hread := memRead_of_reaches kind hreach
    rwa [localIndex_ramAddr hb hoff] at hread
  · have hstore := storesBytes_memWrite v hwf (.inr ⟨rfl, hisolated⟩) hreach
    rw [localIndex_ramAddr hb hoff] at hstore
    obtain ⟨w, hread, hbytes⟩ := memRead_of_reaches kind (reaches_memWrite (addr' := b + off) (n' := n) v hreach')
    refine ⟨hstore, w, hread, fun k hk => ?_⟩
    rw [hbytes k hk, localIndex_ramAddr hc hoff]
    split
    · next hkn => rw [hstore.cells, if_pos ⟨rfl, by omega, by omega⟩, Nat.add_sub_cancel_left]
    · rfl

end Sys2Proof.Machine
end

section
/-! The six shifts (41_shift.md R120 to R125): a register takes the shifted word, read as a number. -/

namespace Sys2Proof.Machine

/-! ## Operations that end in one register write -/

/-- The register write contract (R23) with its whole frame. -/
theorem writesRegister_setReg (s : State) (rd : Reg) (v : Word) : WritesRegister rd v s (s.setReg rd v) where
  regs q := reg_setReg s rd q v
  pcs := samePcs_setReg s rd v
  hiLo := by simp [SameHiLo]
  cp0 := by simp [SameCp0]
  memory := by simp [SameMemory, State.cell]
  halt := by simp
  params := by simp
  devCalls := by simp
  draws := by simp

/-! ## The shifted word as a number, for every amount -/

theorem toNat_shiftLeft_eq_mul_pow (x : Word) (n : Nat) : (x <<< n).toNat = x.toNat * 2 ^ n % 2 ^ 32 := by
  rw [BitVec.toNat_shiftLeft, Nat.shiftLeft_eq]

theorem toNat_ushiftRight_eq_div_pow (x : Word) (n : Nat) : (x >>> n).toNat = x.toNat / 2 ^ n := by
  rw [BitVec.toNat_ushiftRight, Nat.shiftRight_eq_div_pow]

/-- `Int` division by a positive number is the floor of the quotient, as R122 has it. -/
theorem toInt_sshiftRight_eq_div_pow (x : Word) (n : Nat) : (x.sshiftRight n).toInt = x.toInt / 2 ^ n := by
  rw [BitVec.toInt_sshiftRight, Int.shiftRight_eq_div_pow]
  norm_cast

/-- The low five bits of a register are its remainder modulo 32. -/
theorem shiftAmount_eq_mod (s : State) (rs : Reg) : shiftAmount s rs = (s.reg rs).toNat % 32 :=
  BitVec.toNat_setWidth 5 (s.reg rs)

/-! ## The obligations -/

/-- Settles O25: each shift is one register write, of a word whose number the amount fixes. -/
theorem shiftsByConstant : Obligations.ShiftsByConstant := by
  unfold Obligations.ShiftsByConstant
  intro rd rt sh s
  refine ⟨?sll, ?srl, ?sra⟩
  case sll => exact ⟨_, _, rfl, writesRegister_setReg s rd _, toNat_shiftLeft_eq_mul_pow _ _⟩
  case srl => exact ⟨_, _, rfl, writesRegister_setReg s rd _, toNat_ushiftRight_eq_div_pow _ _⟩
  case sra => exact ⟨_, _, rfl, writesRegister_setReg s rd _, toInt_sshiftRight_eq_div_pow _ _⟩

/-- Settles O26: as for O25, with the amount that the low five bits of `x[rs]` give. -/
theorem shiftsByRegister : Obligations.ShiftsByRegister := by
  unfold Obligations.ShiftsByRegister
  intro rd rt rs s
  rw [← shiftAmount_eq_mod]
  refine ⟨?sllv, ?srlv, ?srav⟩
  case sllv => exact ⟨_, _, rfl, writesRegister_setReg s rd _, toNat_shiftLeft_eq_mul_pow _ _⟩
  case srlv => exact ⟨_, _, rfl, writesRegister_setReg s rd _, toNat_ushiftRight_eq_div_pow _ _⟩
  case srav => exact ⟨_, _, rfl, writesRegister_setReg s rd _, toInt_sshiftRight_eq_div_pow _ _⟩

end Sys2Proof.Machine
end

section
/-! The exception entry (60_exceptions.md R224) as the relation `EntersException`, for any of the four causes. -/

namespace Sys2Proof.Machine

/-- The whole cause register is the code times 4 (10_state.md R29). -/
theorem causeWord_eq_ofNat (c : ExcCode) : causeWord c = BitVec.ofNat 32 (4 * (causeCode c).toNat) := by
  cases c <;> rfl

theorem savedPc_eq_ite (s : State) :
    savedPc s = if s.pc = s.currentPc + 4 then s.currentPc else s.currentPc - 4 := by
  rw [savedPc, ite_not]

theorem raiseExc_cp0Word_of_ne (c : ExcCode) (s : State) {k : Reg} (hsr : k ≠ srIndex) (hcause : k ≠ causeIndex)
    (hepc : k ≠ epcIndex) : (raiseExc c s).cp0Word k = s.cp0Word k := by
  rw [raiseExc_cp0Word, if_neg hepc, if_neg hcause, if_neg hsr]

theorem sameRegs_raiseExc (c : ExcCode) (s : State) : SameRegs s (raiseExc c s) := raiseExc_reg c s

theorem entersException_raiseExc (c : ExcCode) (s : State) :
    EntersException (causeCode c).toNat s (raiseExc c s) where
  pc := rfl
  nextPc := rfl
  sr k hk := by rw [raiseExc_sr, pushModes_bit s.sr k hk]
  cause := by rw [raiseExc_cause, causeWord_eq_ofNat]
  epc := by rw [raiseExc_epc, savedPc_eq_ite]
  cp0 _ hsr hcause hepc := raiseExc_cp0Word_of_ne c s hsr hcause hepc
  currentPc := rfl
  hiLo := ⟨rfl, rfl⟩
  memory a i := by rw [State.cell, raiseExc_array, State.cell]
  outside := ⟨rfl, rfl, rfl, rfl⟩

end Sys2Proof.Machine
end

section
/-! Add and subtract (42_arith.md R130 to R133): the results as numbers, and the trapping addition's two ways to end. -/

namespace Sys2Proof.Machine

/-! ## Sums and differences as numbers -/

theorem toNat_sub_eq_emod (x y : Word) : ((x - y).toNat : Int) = ((x.toNat : Int) - y.toNat) % 2 ^ 32 := by
  rw [BitVec.toNat_sub]
  omega

theorem toInt_sext16 (imm : BitVec 16) : (sext16 imm).toInt = imm.toInt :=
  BitVec.toInt_signExtend_of_le (by decide)

/-- The model's overflow test is the pair of comparisons of R130. -/
theorem addOverflows_iff (x y : Word) : addOverflows x y = true ↔ SumOverflows x y := by
  simp only [addOverflows, SumOverflows]
  split
  · rw [decide_eq_true_iff, int32Max]
    omega
  · rw [decide_eq_true_iff, int32Min]
    omega

/-- When neither comparison holds the exact sum is in the range of a word, so adding modulo 2^32 gives it. -/
theorem toInt_add_of_not_sumOverflows {x y : Word} (h : ¬ SumOverflows x y) :
    (x + y).toInt = x.toInt + y.toInt := by
  have hx := x.two_mul_toInt_lt
  have hx' := x.le_two_mul_toInt
  have hy := y.two_mul_toInt_lt
  have hy' := y.le_two_mul_toInt
  rw [SumOverflows] at h
  rw [BitVec.toInt_add]
  exact Int.bmod_eq_of_le (by omega) (by omega)

/-! ## The trapping addition -/

theorem addTrapping_of_not_sumOverflows (rd : Reg) {x y : Word} (s : State) (h : ¬ SumOverflows x y) :
    addTrapping rd x y s = s.setReg rd (x + y) :=
  if_neg (mt (addOverflows_iff x y).1 h)

theorem addTrapping_of_sumOverflows (rd : Reg) {x y : Word} (s : State) (h : SumOverflows x y) :
    addTrapping rd x y s = raiseExc .ov s :=
  if_pos ((addOverflows_iff x y).2 h)

/-- `add` and `addi` share this: without overflow, one register write of the exact sum. -/
theorem addTrapping_writes_sum (rd : Reg) {x y : Word} (s : State) (h : ¬ SumOverflows x y) :
    ∃ v, WritesRegister rd v s (addTrapping rd x y s) ∧ v.toInt = x.toInt + y.toInt := by
  rw [addTrapping_of_not_sumOverflows rd s h]
  exact ⟨x + y, writesRegister_setReg s rd _, toInt_add_of_not_sumOverflows h⟩

/-- `add` and `addi` share this: on overflow, the exception entry with code 12 and no register write. -/
theorem addTrapping_enters_ov (rd : Reg) {x y : Word} (s : State) (h : SumOverflows x y) :
    EntersException 12 s (addTrapping rd x y s) ∧ SameRegs s (addTrapping rd x y s) := by
  rw [addTrapping_of_sumOverflows rd s h]
  exact ⟨entersException_raiseExc .ov s, sameRegs_raiseExc .ov s⟩

/-! ## The obligations -/

/-- Settles O29: `add` and `addi` are the trapping addition, of the second register or of the extended immediate. -/
theorem signedAddsSumOrTrap : Obligations.SignedAddsSumOrTrap := by
  unfold Obligations.SignedAddsSumOrTrap
  refine ⟨fun rd rs rt s => ⟨?addSum, ?addTrap⟩, fun rt rs imm s => ⟨?addiSum, ?addiTrap⟩⟩
  case addSum =>
    intro h
    obtain ⟨v, hwrites, hsum⟩ := addTrapping_writes_sum rd s h
    exact ⟨_, v, rfl, hwrites, hsum⟩
  case addTrap => exact fun h => ⟨_, rfl, addTrapping_enters_ov rd s h⟩
  case addiSum =>
    intro h
    obtain ⟨v, hwrites, hsum⟩ := addTrapping_writes_sum rt (y := sext16 imm) s h
    exact ⟨_, v, rfl, hwrites, hsum.trans (by rw [toInt_sext16])⟩
  case addiTrap => exact fun h => ⟨_, rfl, addTrapping_enters_ov rt (y := sext16 imm) s h⟩

/-- Settles O27: each is one register write, of the sum or the difference modulo 2^32. -/
theorem nonTrappingAddSub : Obligations.NonTrappingAddSub := by
  unfold Obligations.NonTrappingAddSub
  intro rd rs rt s
  refine ⟨?addu, ?subu⟩
  case addu => exact ⟨_, _, rfl, writesRegister_setReg s rd _, BitVec.toNat_add _ _⟩
  case subu => exact ⟨_, _, rfl, writesRegister_setReg s rd _, toNat_sub_eq_emod _ _⟩

end Sys2Proof.Machine
end

section
/-! Logic and compares (44_logic_compare.md R150 to R161): a register takes the word that the spec gives bit by bit, or
the 0 or 1 of a comparison. -/

namespace Sys2Proof.Machine

/-! ## The bits of the operands and the results -/

/-- Above bit 15 both sides are 0. -/
theorem getLsbD_zext16 (imm : BitVec 16) {k : Nat} (hk : k < 32) : (zext16 imm).getLsbD k = imm.getLsbD k := by
  rw [zext16, BitVec.getLsbD_setWidth, decide_eq_true hk, Bool.true_and]

theorem getLsbD_nor (x y : Word) {k : Nat} (hk : k < 32) :
    (~~~(x ||| y)).getLsbD k = !(x.getLsbD k || y.getLsbD k) := by
  rw [BitVec.getLsbD_not, decide_eq_true hk, Bool.true_and, BitVec.getLsbD_or]

theorem toNat_upperImm (imm : BitVec 16) : (upperImm imm).toNat = imm.toNat * 2 ^ 16 := by
  rw [upperImm, BitVec.toNat_append, Nat.shiftLeft_eq]
  exact Nat.or_zero _

/-! ## The comparisons -/

/-- R160 compares with the residue modulo 2^32 of the signed immediate. -/
theorem toNat_sext16_eq_emod (imm : BitVec 16) : ((sext16 imm).toNat : Int) = imm.toInt % 2 ^ 32 := by
  rw [← toInt_sext16, BitVec.toInt_eq_toNat_cond]
  omega

theorem boolWord_lessSigned (x y : Word) : boolWord (lessSigned x y) = if x.toInt < y.toInt then 1 else 0 := by
  simp only [boolWord, lessSigned, decide_eq_true_iff]

theorem boolWord_lessUnsigned (x y : Word) : boolWord (lessUnsigned x y) = if x.toNat < y.toNat then 1 else 0 := by
  simp only [boolWord, lessUnsigned, decide_eq_true_iff]

theorem boolWord_lessSigned_sext16 (x : Word) (imm : BitVec 16) :
    boolWord (lessSigned x (sext16 imm)) = if x.toInt < imm.toInt then 1 else 0 := by
  rw [boolWord_lessSigned, toInt_sext16]

theorem boolWord_lessUnsigned_sext16 (x : Word) (imm : BitVec 16) :
    boolWord (lessUnsigned x (sext16 imm)) = if (x.toNat : Int) < imm.toInt % 2 ^ 32 then 1 else 0 := by
  simp only [boolWord_lessUnsigned, ← toNat_sext16_eq_emod, Int.ofNat_lt]

/-! ## The obligations -/

/-- Settles O34: each is one register write, of a word whose bits the two registers' bits give. -/
theorem bitwiseRegisterOps : Obligations.BitwiseRegisterOps := by
  unfold Obligations.BitwiseRegisterOps
  intro rd rs rt s
  refine ⟨?and, ?or, ?xor, ?nor⟩
  case and => exact ⟨_, _, rfl, writesRegister_setReg s rd _, fun _ _ => BitVec.getLsbD_and⟩
  case or => exact ⟨_, _, rfl, writesRegister_setReg s rd _, fun _ _ => BitVec.getLsbD_or⟩
  case xor => exact ⟨_, _, rfl, writesRegister_setReg s rd _, fun _ _ => BitVec.getLsbD_xor⟩
  case nor => exact ⟨_, _, rfl, writesRegister_setReg s rd _, fun _ hk => getLsbD_nor _ _ hk⟩

/-- Settles O35: as for O34, with the bits of the zero-extended immediate; `lui` writes the immediate times `2 ^ 16`. -/
theorem bitwiseImmediateOps : Obligations.BitwiseImmediateOps := by
  unfold Obligations.BitwiseImmediateOps
  intro rt rs imm s
  refine ⟨?andi, ?ori, ?xori, ?lui⟩
  case andi =>
    refine ⟨_, _, rfl, writesRegister_setReg s rt _, fun k hk => ?_⟩
    rw [BitVec.getLsbD_and, getLsbD_zext16 imm hk]
  case ori =>
    refine ⟨_, _, rfl, writesRegister_setReg s rt _, fun k hk => ?_⟩
    rw [BitVec.getLsbD_or, getLsbD_zext16 imm hk]
  case xori =>
    refine ⟨_, _, rfl, writesRegister_setReg s rt _, fun k hk => ?_⟩
    rw [BitVec.getLsbD_xor, getLsbD_zext16 imm hk]
  case lui => exact ⟨_, _, rfl, writesRegister_setReg s rt _, toNat_upperImm imm⟩

/-- Settles O36: each is one register write, of the 0 or 1 of its comparison; the immediate is sign-extended in both. -/
theorem comparesWriteZeroOrOne : Obligations.ComparesWriteZeroOrOne := by
  unfold Obligations.ComparesWriteZeroOrOne
  refine ⟨fun rd rs rt s => ⟨?slt, ?sltu⟩, fun rt rs imm s => ⟨?slti, ?sltiu⟩⟩
  case slt =>
    rw [← boolWord_lessSigned]
    exact ⟨_, rfl, writesRegister_setReg s rd _⟩
  case sltu =>
    rw [← boolWord_lessUnsigned]
    exact ⟨_, rfl, writesRegister_setReg s rd _⟩
  case slti =>
    rw [← boolWord_lessSigned_sext16]
    exact ⟨_, rfl, writesRegister_setReg s rt _⟩
  case sltiu =>
    rw [← boolWord_lessUnsigned_sext16]
    exact ⟨_, rfl, writesRegister_setReg s rt _⟩

end Sys2Proof.Machine
end

section
/-! Conditional branches (45_branch.md R170 to R178): an optional link write, then a write of `next_pc` alone. -/

namespace Sys2Proof.Machine

/-! ## The write of `next_pc` -/

/-- A control transfer is a write of `next_pc` after the register write of its link, whose frame it keeps. -/
theorem transfers_setNextPc {s u : State} {rd : Reg} {link : Word} {k : Nat} (target : Word)
    (h : LoadsRegister rd link [] k s u) : Transfers target rd link k s (u.setNextPc target) := by
  obtain ⟨hpc, -, hcurrentPc⟩ := h.pcs
  exact {
    nextPc := setNextPc_nextPc u target
    pc := hpc
    currentPc := hcurrentPc
    regs := h.regs
    hiLo := h.hiLo
    cp0 := h.cp0
    memory := h.memory
    halt := h.halt
    params := h.params
    devCalls := h.devCalls.trans (List.append_nil _)
    draws := h.draws }

/-- A write to register 0 is discarded, so the transfers without a link write it. -/
theorem writesRegister_zero (s : State) : WritesRegister 0 0 s s := writesRegister_setReg s 0 0

/-- R176, R177: the link write is unconditional. -/
theorem writesRegister_writeLink (s : State) : WritesRegister 31 (s.pc + 4) s (writeLink s) :=
  writesRegister_setReg s linkReg (linkValue s)

/-! ## The target and the conditions -/

/-- `sext_16(imm) << 2` is `4 * imm` modulo 2^32 (R178). -/
theorem isBranchTarget_branchTarget (s : State) (imm : BitVec 16) : IsBranchTarget s imm (branchTarget s imm) := by
  have himm := toNat_sext16_eq_emod imm
  rw [IsBranchTarget, branchTarget, BitVec.toNat_add, toNat_shiftLeft_eq_mul_pow]
  omega

theorem branchTarget_congr {s u : State} (imm : BitVec 16) (h : u.pc = s.pc) :
    branchTarget u imm = branchTarget s imm := by
  rw [branchTarget, h, branchTarget]

theorem isNegative_iff (v : Word) : isNegative v = true ↔ v.toInt < 0 := by
  rw [isNegative, decide_eq_true_iff]

theorem not_isNegative_iff (v : Word) : (!isNegative v) = true ↔ 0 ≤ v.toInt := by
  rw [Bool.not_eq_true', ← Bool.not_eq_true, isNegative_iff, Int.not_lt]

theorem isNotPositive_iff (v : Word) : isNotPositive v = true ↔ v.toInt ≤ 0 := by
  rw [isNotPositive, decide_eq_true_iff]

theorem not_isNotPositive_iff (v : Word) : (!isNotPositive v) = true ↔ 0 < v.toInt := by
  rw [Bool.not_eq_true', ← Bool.not_eq_true, isNotPositive_iff, Int.not_le]

/-! ## The branch -/

/-- R178 for all eight branches: after a link write (of nothing, for the branches without a link), the branch goes to
the target that `s` fixes when the condition holds, and keeps the `next_pc` of `s` otherwise. -/
theorem branches_branchIf {s u : State} {P : Prop} {cond : Bool} {rd : Reg} {link : Word} {k : Nat} (imm : BitVec 16)
    (hcond : cond = true ↔ P) (h : LoadsRegister rd link [] k s u) :
    Branches P imm rd link k s (branchIf cond imm u) := by
  obtain ⟨hpc, hnextPc, -⟩ := h.pcs
  refine ⟨branchTarget s imm, isBranchTarget_branchTarget s imm, fun htaken => ?taken, fun hnot => ?notTaken⟩
  case taken =>
    rw [branchIf, if_pos (hcond.2 htaken), branchTarget_congr imm hpc]
    exact transfers_setNextPc _ h
  case notTaken =>
    rw [branchIf, if_neg (mt hcond.1 hnot), hnextPc]
    exact transfers_setNextPc _ h

theorem branchLinkIf_of_ne (cond : Word → Bool) {rs : Reg} (imm : BitVec 16) (s : State) (h : rs ≠ 31) :
    branchLinkIf cond rs imm s = branchIf (cond (s.reg rs)) imm (writeLink s) :=
  if_neg h

/-! ## The obligations -/

/-- Settles O37: each is the branch without a link, on the comparison of the two registers. -/
theorem equalityBranches : Obligations.EqualityBranches := by
  unfold Obligations.EqualityBranches
  intro rs rt imm s
  refine ⟨?beq, ?bne⟩
  case beq => exact ⟨_, rfl, branches_branchIf imm beq_iff_eq (writesRegister_zero s)⟩
  case bne => exact ⟨_, rfl, branches_branchIf imm bne_iff_ne (writesRegister_zero s)⟩

/-- Settles O38: each is the branch without a link, on the sign of its register. -/
theorem signBranches : Obligations.SignBranches := by
  unfold Obligations.SignBranches
  intro rs imm s
  refine ⟨?blez, ?bgtz, ?bltz, ?bgez⟩
  case blez => exact ⟨_, rfl, branches_branchIf imm (isNotPositive_iff _) (writesRegister_zero s)⟩
  case bgtz => exact ⟨_, rfl, branches_branchIf imm (not_isNotPositive_iff _) (writesRegister_zero s)⟩
  case bltz => exact ⟨_, rfl, branches_branchIf imm (isNegative_iff _) (writesRegister_zero s)⟩
  case bgez => exact ⟨_, rfl, branches_branchIf imm (not_isNegative_iff _) (writesRegister_zero s)⟩

/-- Settles O39: with `rs` other than 31 each is the link write and then the branch, on the sign of its register. -/
theorem linkBranches : Obligations.LinkBranches := by
  unfold Obligations.LinkBranches
  intro rs imm s hrs
  refine ⟨?bltzal, ?bgezal⟩
  case bltzal =>
    refine ⟨_, rfl, ?_⟩
    rw [branchLinkIf_of_ne _ imm s hrs]
    exact branches_branchIf imm (isNegative_iff _) (writesRegister_writeLink s)
  case bgezal =>
    refine ⟨_, rfl, ?_⟩
    rw [branchLinkIf_of_ne _ imm s hrs]
    exact branches_branchIf imm (not_isNegative_iff _) (writesRegister_writeLink s)

end Sys2Proof.Machine
end

section
/-! Jumps (46_jump.md R180 to R182): an optional link write, then a write of `next_pc`, whose value for `j` and `jal` is
read off as a number. -/

namespace Sys2Proof.Machine

/-! ## The target of `j` and `jal` -/

theorem upperFourBits_eq_shifts (x : Word) : x &&& 0xF0000000#32 = x >>> 28 <<< 28 := by
  apply BitVec.eq_of_getLsbD_eq
  intro k hk
  have hmask : (0xF0000000#32).getLsbD k = decide (28 ≤ k) := by
    revert k
    decide
  rw [BitVec.getLsbD_and, hmask, BitVec.getLsbD_shiftLeft, BitVec.getLsbD_ushiftRight]
  by_cases hlow : k < 28
  · simp [hlow]
  · simp [hlow, hk, show 28 + (k - 28) = k by omega, show 28 ≤ k by omega]

theorem toNat_upperFourBits (x : Word) : (x &&& 0xF0000000#32).toNat = x.toNat / 2 ^ 28 * 2 ^ 28 := by
  rw [upperFourBits_eq_shifts, toNat_shiftLeft_eq_mul_pow, toNat_ushiftRight_eq_div_pow]
  omega

theorem toNat_targetTimesFour (target : BitVec 26) :
    (target.setWidth 32 <<< 2 : Word).toNat = target.toNat * 4 := by
  rw [toNat_shiftLeft_eq_mul_pow, BitVec.toNat_setWidth]
  omega

/-- The target times 4 is below `2 ^ 28`, so the two parts share no bit and their union is their sum. -/
theorem toNat_jumpTarget (s : State) (target : BitVec 26) :
    (jumpTarget s target).toNat = s.pc.toNat / 2 ^ 28 * 2 ^ 28 + target.toNat * 4 := by
  have hparts : jumpTarget s target = (s.pc &&& 0xF0000000#32) ||| (target.setWidth 32 <<< 2) := rfl
  have hbelow : target.toNat * 4 < 2 ^ 28 := by omega
  rw [hparts, BitVec.toNat_or, toNat_upperFourBits, toNat_targetTimesFour, Nat.mul_comm (s.pc.toNat / 2 ^ 28),
    Nat.two_pow_add_eq_or_of_lt hbelow]

/-! ## The obligation -/

/-- Settles O41: each is a write of `next_pc`, for `jal` after the link write of register 31; for `j` and `jal` the
target is read off as a number. -/
theorem jumpsWriteNextPc : Obligations.JumpsWriteNextPc := by
  unfold Obligations.JumpsWriteNextPc
  intro target rs s
  refine ⟨?j, ?jal, ?jr⟩
  case j => exact ⟨_, _, rfl, transfers_setNextPc _ (writesRegister_zero s), toNat_jumpTarget s target⟩
  case jal => exact ⟨_, _, rfl, transfers_setNextPc _ (writesRegister_writeLink s), toNat_jumpTarget s target⟩
  case jr => exact ⟨_, rfl, transfers_setNextPc _ (writesRegister_zero s)⟩

end Sys2Proof.Machine
end

section
/-! Coprocessor-0 moves, `rfe` and `syscall` (48_cop0_system.md R210 to R213): a register write, a write of one bank
word, and the exception entry. -/

namespace Sys2Proof.Machine

/-! ## The write of one bank word -/

/-- Besides the bank, a write of one of its words leaves every part of the state alone. -/
theorem setCp0Word_frame (s : State) (k : Reg) (v : Word) :
    SameRegs s (s.setCp0Word k v) ∧ SamePcs s (s.setCp0Word k v) ∧ SameHiLo s (s.setCp0Word k v) ∧
      SameMemory s (s.setCp0Word k v) ∧ SameOutside s (s.setCp0Word k v) :=
  ⟨reg_congr rfl, samePcs_setCp0Word s k v, ⟨rfl, rfl⟩,
    fun a i => congrArg (Memory.read · i) (array_congr rfl rfl rfl a), ⟨rfl, rfl, rfl, rfl⟩⟩

theorem cp0Word_setCp0Word_self (s : State) (k : Reg) (v : Word) : (s.setCp0Word k v).cp0Word k = v := by
  rw [cp0Word_setCp0Word, if_pos rfl]

/-! ## The named view of the bank (R26): `sr`, `cause`, `epc` are words 12, 13, 14 -/

theorem sr_setCp0Word {s : State} {k : Reg} {v : Word} (h : k = 12) : (s.setCp0Word k v).sr = v := by
  subst h
  exact cp0Word_setCp0Word_self s srIndex v

theorem cause_setCp0Word {s : State} {k : Reg} {v : Word} (h : k = 13) : (s.setCp0Word k v).cause = v := by
  subst h
  exact cp0Word_setCp0Word_self s causeIndex v

theorem epc_setCp0Word {s : State} {k : Reg} {v : Word} (h : k = 14) : (s.setCp0Word k v).epc = v := by
  subst h
  exact cp0Word_setCp0Word_self s epcIndex v

/-! ## The pop of the mode stack -/

theorem restoreModes_sr (s : State) : (restoreModes s).sr = popModes s.sr :=
  sr_setCp0Word rfl

theorem restoreModes_cp0Word_of_ne (s : State) {k : Reg} (h : k ≠ srIndex) :
    (restoreModes s).cp0Word k = s.cp0Word k := by
  rw [restoreModes_cp0Word, if_neg h]

/-! ## The obligations -/

/-- Settles O59: `rfe` is the write of word 12 with the popped stack, whose bits `popModes_bit` gives. -/
theorem rfePopsModeStack : Obligations.RfePopsModeStack := by
  unfold Obligations.RfePopsModeStack
  intro s
  refine ⟨restoreModes s, rfl, fun k hk => ?sr, fun _ => restoreModes_cp0Word_of_ne s, ?frame⟩
  case sr => rw [restoreModes_sr, popModes_bit s.sr k hk]
  case frame => exact setCp0Word_frame s srIndex (popModes s.sr)

/-- Settles O58: `mfc0` is one register write, `mtc0` the write of one bank word. -/
theorem cp0Moves : Obligations.Cp0Moves := by
  unfold Obligations.Cp0Moves
  intro rt rd s
  refine ⟨?mfc0, ?mtc0⟩
  case mfc0 => exact ⟨_, rfl, writesRegister_setReg s rt _⟩
  case mtc0 =>
    exact ⟨_, rfl, fun k => cp0Word_setCp0Word s rd k _, sr_setCp0Word, cause_setCp0Word, epc_setCp0Word,
      setCp0Word_frame s rd _⟩

/-- Settles O60: `syscall` is the exception entry with cause code 8, in every state. -/
theorem syscallTraps : Obligations.SyscallTraps := by
  unfold Obligations.SyscallTraps
  exact fun s => ⟨_, rfl, entersException_raiseExc .sys s, sameRegs_raiseExc .sys s⟩

end Sys2Proof.Machine
end

section
/-! O21: the exception entry, for each of the four causes of 60_exceptions.md R220. -/

namespace Sys2Proof.Machine

/-- The entry for any cause: the five effects of R224 and the frame, the general registers included. -/
theorem raiseExc_effects (c : ExcCode) (s : State) :
    EntersException (causeCode c).toNat s (raiseExc c s) ∧ SameRegs s (raiseExc c s) :=
  ⟨entersException_raiseExc c s, sameRegs_raiseExc c s⟩

/-- Settles O21: the four codes are `causeCode` of the four causes, and one lemma covers every cause. -/
theorem exceptionEntryEffects : Obligations.ExceptionEntryEffects := by
  unfold Obligations.ExceptionEntryEffects
  exact fun s => ⟨raiseExc_effects .adEL s, raiseExc_effects .adES s, raiseExc_effects .sys s, raiseExc_effects .ov s⟩

end Sys2Proof.Machine
end

section
/-! Reset (70_reset_and_hazards.md R250, R251): the values it names, for the state a run starts in and for any state in
which the host asserts reset, and the frame of the latter. -/

namespace Sys2Proof.Machine

theorem resetPc_add_four : resetPc + 4 = 0xBFC00004 := by decide

@[simp] theorem reset_sr : State.reset.sr = resetSr := by decide

@[simp] theorem assertReset_sr (s : State) : s.assertReset.sr = resetSr :=
  calc
    s.assertReset.sr = (s.setCp0Word srIndex resetSr).sr := cp0Word_congr rfl srIndex
    _ = resetSr := sr_setCp0Word rfl

@[simp] theorem array_assertReset (s : State) (a : ArrayId) : s.assertReset.array a = s.array a :=
  array_congr (assertReset_ram s) (assertReset_rom s) (assertReset_scratch s) a

theorem sameMemory_assertReset (s : State) : SameMemory s s.assertReset :=
  fun a i => congrArg (Memory.read · i) (array_assertReset s a)

/-- Settles O1: the named values for the two states, and for the asserted reset that every array and the record of
device calls are as before. Register 0 reads 0 in every state (`reg_zero`). -/
theorem resetSetsNamedRegisters : Obligations.ResetSetsNamedRegisters := by
  unfold Obligations.ResetSetsNamedRegisters
  refine ⟨?start, fun s => ?asserted⟩
  case start => exact ⟨rfl, resetPc_add_four, reset_sr, reg_zero _⟩
  case asserted =>
    have hnext : s.assertReset.nextPc = 0xBFC00004 := (assertReset_nextPc s).trans resetPc_add_four
    exact ⟨assertReset_pc s, hnext, assertReset_sr s, reg_zero _, sameMemory_assertReset s, assertReset_devCalls s⟩

end Sys2Proof.Machine
end

section
/-! Decoding and encoding (30_encoding.md R90 to R100): the two are inverse on the words of instructions, a decoded word
is re-encoded with its unused bits cleared, and the decoder accepts exactly the words of the opcode table's rows. -/

namespace Sys2Proof

/-- Settles O4: each format gives back the dispatch keys, which select the instruction's arm, and the operands. -/
theorem encodeThenDecode : Obligations.EncodeThenDecode := by
  unfold Obligations.EncodeThenDecode
  intro i
  cases i with
  | sll | srl | sra | sllv | srlv | srav | jr | jalr | syscall | mfhi | mflo | mult | multu | div | divu | add | addu
  | subu | and | or | xor | nor | slt | sltu =>
    simp only [encode, decode, decodeSpecial, op_encR, funct_encR, rs_encR, rt_encR, rd_encR, shamt_encR]
  | mfc0 | mtc0 | rfe =>
    simp only [encode, decode, decodeCop0, op_encR, rsBits_encR, funct_encR, rt_encR, rd_encR]
    rfl
  | bltz | bgez | bltzal | bgezal =>
    simp only [encode, decode, decodeRegion1, op_encI, rtBits_encI, rs_encI, imm_encI]
    rfl
  | j | jal => simp only [encode, decode, op_encJ, target_encJ]
  | _ => simp only [encode, decode, op_encI, rs_encI, rt_encI, imm_encI]

/-! ## A word is made of its fields, in each format, and so is a masked word -/

theorem encR_fields (w : Word) :
    encR (fieldOp w) (fieldRs w) (fieldRt w) (fieldRd w) (fieldShamt w) (fieldFunct w) = w := by
  apply BitVec.eq_of_getLsbD_eq
  intro k hk
  simp only [encR, fieldOp, fieldRs, fieldRt, fieldRd, fieldShamt, fieldFunct, BitVec.ofFin_toFin,
    BitVec.getLsbD_append, BitVec.getLsbD_extractLsb']
  grind

theorem encI_fields (w : Word) : encI (fieldOp w) (fieldRs w) (fieldRt w) (fieldImm w) = w := by
  apply BitVec.eq_of_getLsbD_eq
  intro k hk
  simp only [encI, fieldOp, fieldRs, fieldRt, fieldImm, BitVec.ofFin_toFin, BitVec.getLsbD_append,
    BitVec.getLsbD_extractLsb']
  grind

theorem encJ_fields (w : Word) : encJ (fieldOp w) (fieldTarget w) = w := by
  apply BitVec.eq_of_getLsbD_eq
  intro k hk
  simp only [encJ, fieldOp, fieldTarget, BitVec.getLsbD_append, BitVec.getLsbD_extractLsb']
  grind

theorem fieldOp_and (w m : Word) : fieldOp (w &&& m) = fieldOp w &&& fieldOp m := BitVec.extractLsb'_and
theorem fieldShamt_and (w m : Word) : fieldShamt (w &&& m) = fieldShamt w &&& fieldShamt m := BitVec.extractLsb'_and
theorem fieldFunct_and (w m : Word) : fieldFunct (w &&& m) = fieldFunct w &&& fieldFunct m := BitVec.extractLsb'_and
theorem fieldImm_and (w m : Word) : fieldImm (w &&& m) = fieldImm w &&& fieldImm m := BitVec.extractLsb'_and

/-- Register numbers are masked as the five bits they stand for. -/
theorem toFin_and (x y : BitVec 5) : (x &&& y).toFin = x.toFin &&& y.toFin := by
  have hall : ∀ a b : Reg, (BitVec.ofFin a &&& BitVec.ofFin b : BitVec 5).toFin = a &&& b := by decide
  exact hall x.toFin y.toFin

theorem fieldRs_and (w m : Word) : fieldRs (w &&& m) = fieldRs w &&& fieldRs m := by
  rw [fieldRs, BitVec.extractLsb'_and, toFin_and, fieldRs, fieldRs]

theorem fieldRt_and (w m : Word) : fieldRt (w &&& m) = fieldRt w &&& fieldRt m := by
  rw [fieldRt, BitVec.extractLsb'_and, toFin_and, fieldRt, fieldRt]

theorem fieldRd_and (w m : Word) : fieldRd (w &&& m) = fieldRd w &&& fieldRd m := by
  rw [fieldRd, BitVec.extractLsb'_and, toFin_and, fieldRd, fieldRd]

theorem and_eq_encR (w m : Word) :
    w &&& m = encR (fieldOp w &&& fieldOp m) (fieldRs w &&& fieldRs m) (fieldRt w &&& fieldRt m)
      (fieldRd w &&& fieldRd m) (fieldShamt w &&& fieldShamt m) (fieldFunct w &&& fieldFunct m) := by
  rw [← fieldOp_and, ← fieldRs_and, ← fieldRt_and, ← fieldRd_and, ← fieldShamt_and, ← fieldFunct_and, encR_fields]

theorem and_eq_encI (w m : Word) :
    w &&& m = encI (fieldOp w &&& fieldOp m) (fieldRs w &&& fieldRs m) (fieldRt w &&& fieldRt m)
      (fieldImm w &&& fieldImm m) := by
  rw [← fieldOp_and, ← fieldRs_and, ← fieldRt_and, ← fieldImm_and, encI_fields]

/-! ## Re-encoding a decoded word (D26)

A field of a mask is all ones where the row looks at the field, and 0 where it does not. -/

theorem reg_and_ones (r : Reg) : r &&& 31 = r := by revert r; decide

theorem reg_and_zero (r : Reg) : r &&& 0 = 0 := by revert r; decide

theorem shamt_and_ones (x : BitVec 5) : x &&& 31#5 = x := BitVec.and_allOnes

theorem imm_and_ones (x : BitVec 16) : x &&& 65535#16 = x := BitVec.and_allOnes

theorem word_and_ones (w : Word) : w &&& 4294967295#32 = w := BitVec.and_allOnes

/-- The bits of a word that its instruction looks at: the dispatch keys and the operands of its row. -/
def Instr.usedBits (i : Instr) : Word := i.row.mask ||| i.row.operands

/-- In every arm of the group the masked word, cut into the fields of format R, is the word that `encode` builds. -/
theorem encode_of_decodeSpecial {w : Word} {i : Instr} (hop : fieldOp w = 0x00#6)
    (h : decodeSpecial w = .instr i) : encode i = w &&& i.usedBits := by
  unfold decodeSpecial at h
  split at h <;> cases h <;> next hfunct =>
    rw [and_eq_encR, hop, hfunct]
    simp [encode, Instr.usedBits, Instr.row, Instr.mnemonic, opcodeTable, opcodeRowsSpecial, fieldOp, fieldRs, fieldRt,
      fieldRd, fieldShamt, fieldFunct, reg_and_ones, reg_and_zero, shamt_and_ones]

/-- As for the SPECIAL group, in format I. -/
theorem encode_of_decodeRegion1 {w : Word} {i : Instr} (hop : fieldOp w = 0x01#6)
    (h : decodeRegion1 w = .instr i) : encode i = w &&& i.usedBits := by
  unfold decodeRegion1 at h
  split at h <;> cases h <;> next hrt =>
    rw [and_eq_encI, hop, fieldRt, hrt]
    simp [encode, Instr.usedBits, Instr.row, Instr.mnemonic, opcodeTable, opcodeRowsSpecial, opcodeRowsBranch, fieldOp,
      fieldRs, fieldRt, fieldImm, reg_and_ones, imm_and_ones] <;> rfl

/-- As for the SPECIAL group; `funct` is a key of `rfe` alone. -/
theorem encode_of_decodeCop0 {w : Word} {i : Instr} (hop : fieldOp w = 0x10#6) (h : decodeCop0 w = .instr i) :
    encode i = w &&& i.usedBits := by
  unfold decodeCop0 at h
  split at h
  case h_1 hrs | h_2 hrs =>
    cases h
    rw [and_eq_encR, hop, fieldRs, hrs]
    simp [encode, Instr.usedBits, Instr.row, Instr.mnemonic, opcodeTable, opcodeRowsSpecial, opcodeRowsBranch,
      opcodeRowsImmediate, fieldOp, fieldRs, fieldRt, fieldRd, fieldShamt, fieldFunct, reg_and_ones]
  case h_3 hrs =>
    split at h <;> cases h
    next hfunct =>
      rw [and_eq_encR, hop, fieldRs, hrs, hfunct]
      simp [encode, Instr.usedBits, Instr.row, Instr.mnemonic, opcodeTable, opcodeRowsSpecial, opcodeRowsBranch,
        opcodeRowsImmediate, fieldOp, fieldRs, fieldRt, fieldRd, fieldShamt, fieldFunct, reg_and_zero]
  case h_4 => cases h

/-- The three groups above, `j` and `jal` in format J, and every other arm in format I. -/
theorem encode_of_decode {w : Word} {i : Instr} (h : decode w = .instr i) : encode i = w &&& i.usedBits := by
  unfold decode at h
  split at h
  case h_1 hop => exact encode_of_decodeSpecial hop h
  case h_2 hop => exact encode_of_decodeRegion1 hop h
  case h_17 hop => exact encode_of_decodeCop0 hop h
  case h_3 hop | h_4 hop =>
    cases h
    have hw := encJ_fields w
    rw [hop] at hw
    simp [encode, hw, Instr.usedBits, Instr.row, Instr.mnemonic, opcodeTable, opcodeRowsSpecial, opcodeRowsBranch,
      word_and_ones]
  all_goals cases h <;> next hop =>
    rw [and_eq_encI, hop]
    simp [encode, Instr.usedBits, Instr.row, Instr.mnemonic, opcodeTable, opcodeRowsSpecial, opcodeRowsBranch,
      opcodeRowsImmediate, opcodeRowsMemory, fieldOp, fieldRs, fieldRt, fieldImm, reg_and_ones, reg_and_zero,
      imm_and_ones]

/-- Settles O7: re-encoding keeps the used bits of every decoded word and clears the others. -/
theorem decodeIgnoresUnusedBits : Obligations.DecodeIgnoresUnusedBits := by
  unfold Obligations.DecodeIgnoresUnusedBits
  exact fun _ _ h => encode_of_decode h

/-! ## The row of an instruction -/

theorem find_row_of_mem :
    ∀ r ∈ opcodeTable, (opcodeTable.find? fun q => q.mnemonic == r.mnemonic) = some r := by decide

theorem row_eq_of_mem {i : Instr} {r : OpcodeRow} (hr : r ∈ opcodeTable) (h : i.mnemonic = r.mnemonic) :
    i.row = r := by
  rw [Instr.row, h, find_row_of_mem r hr, Option.getD_some]

/-- The word of an instruction lies in its row, by the mask of the row's group. -/
theorem encode_and_mask (i : Instr) : encode i &&& i.row.mask = i.row.pattern := by
  cases i with
  | sll | srl | sra | sllv | srlv | srav | jr | jalr | syscall | mfhi | mflo | mult | multu | div | divu | add | addu
  | subu | and | or | xor | nor | slt | sltu => exact encR_mask_special ..
  | mfc0 | mtc0 => exact encR_mask_cop0 ..
  | rfe => rfl
  | bltz | bgez | bltzal | bgezal => exact encI_mask_region1 ..
  | j | jal => exact encJ_mask_op ..
  | _ => exact encI_mask_op ..

theorem usedBits_and_mask (i : Instr) : i.usedBits &&& i.row.mask = i.row.mask := by
  apply BitVec.eq_of_getLsbD_eq
  intro k _
  rw [Instr.usedBits, BitVec.getLsbD_and, BitVec.getLsbD_or]
  cases i.row.mask.getLsbD k <;> simp

/-- A decoded word lies in the row of its instruction, since the mask is among the used bits, which re-encoding keeps. -/
theorem and_mask_of_decode {w : Word} {i : Instr} (h : decode w = .instr i) :
    w &&& i.row.mask = i.row.pattern :=
  calc
    w &&& i.row.mask = w &&& i.usedBits &&& i.row.mask := by rw [BitVec.and_assoc, usedBits_and_mask]
    _ = i.row.pattern := by rw [← encode_of_decode h, encode_and_mask]

/-! ## The decoder reads the mnemonic off the dispatch keys (R94) -/

/-- The mnemonic of what the decoder answers, if it is an instruction. -/
def Decoded.mnemonic? : Decoded → Option String
  | .instr i => some i.mnemonic
  | .unimplemented _ => none

theorem mnemonic?_eq_some_iff {d : Decoded} {m : String} :
    d.mnemonic? = some m ↔ ∃ i, d = .instr i ∧ i.mnemonic = m := by
  cases d <;> simp [Decoded.mnemonic?]

/-- Two words agree in the fields that the decoder dispatches on. -/
structure SameKeys (w p : Word) : Prop where
  op : fieldOp w = fieldOp p
  special : fieldOp p = 0x00#6 → fieldFunct w = fieldFunct p
  region1 : fieldOp p = 0x01#6 → w.extractLsb' 16 5 = p.extractLsb' 16 5
  cop0 : fieldOp p = 0x10#6 → w.extractLsb' 21 5 = p.extractLsb' 21 5
  cop0Op : fieldOp p = 0x10#6 → p.extractLsb' 21 5 = 0x10#5 → fieldFunct w = fieldFunct p

theorem decodeSpecial_mnemonic {w p : Word} (h : fieldFunct w = fieldFunct p) :
    (decodeSpecial w).mnemonic? = (decodeSpecial p).mnemonic? := by
  unfold decodeSpecial
  rw [h]
  split <;> rfl

theorem decodeRegion1_mnemonic {w p : Word} (h : w.extractLsb' 16 5 = p.extractLsb' 16 5) :
    (decodeRegion1 w).mnemonic? = (decodeRegion1 p).mnemonic? := by
  unfold decodeRegion1
  rw [h]
  split <;> rfl

theorem decodeCop0_mnemonic {w p : Word} (h : w.extractLsb' 21 5 = p.extractLsb' 21 5)
    (hfunct : p.extractLsb' 21 5 = 0x10#5 → fieldFunct w = fieldFunct p) :
    (decodeCop0 w).mnemonic? = (decodeCop0 p).mnemonic? := by
  unfold decodeCop0
  rw [h]
  split
  case h_3 hrs => rw [hfunct hrs]
  all_goals rfl

theorem SameKeys.decode_mnemonic {w p : Word} (h : SameKeys w p) : (decode w).mnemonic? = (decode p).mnemonic? := by
  unfold decode
  rw [h.op]
  split
  case h_1 hop => exact decodeSpecial_mnemonic (h.special hop)
  case h_2 hop => exact decodeRegion1_mnemonic (h.region1 hop)
  case h_17 hop => exact decodeCop0_mnemonic (h.cop0 hop) (h.cop0Op hop)
  all_goals rfl

/-! ## The mask of a row holds the dispatch keys that lead to the row -/

theorem mask_covers_keys : ∀ r ∈ opcodeTable,
    fieldOp r.mask = BitVec.allOnes 6 ∧
    (fieldOp r.pattern = 0x00#6 → fieldFunct r.mask = BitVec.allOnes 6) ∧
    (fieldOp r.pattern = 0x01#6 → r.mask.extractLsb' 16 5 = BitVec.allOnes 5) ∧
    (fieldOp r.pattern = 0x10#6 → r.mask.extractLsb' 21 5 = BitVec.allOnes 5) ∧
    (fieldOp r.pattern = 0x10#6 → r.pattern.extractLsb' 21 5 = 0x10#5 → fieldFunct r.mask = BitVec.allOnes 6) := by
  decide

theorem extractLsb'_of_and_eq {w m p : Word} {start len : Nat} (h : w &&& m = p)
    (hm : m.extractLsb' start len = BitVec.allOnes len) : w.extractLsb' start len = p.extractLsb' start len := by
  rw [← h, BitVec.extractLsb'_and, hm, BitVec.and_allOnes]

theorem sameKeys_of_row {w : Word} {r : OpcodeRow} (hr : r ∈ opcodeTable) (h : w &&& r.mask = r.pattern) :
    SameKeys w r.pattern := by
  obtain ⟨hop, hspecial, hregion1, hcop0, hcop0Op⟩ := mask_covers_keys r hr
  exact {
    op := extractLsb'_of_and_eq h hop
    special := fun hp => extractLsb'_of_and_eq h (hspecial hp)
    region1 := fun hp => extractLsb'_of_and_eq h (hregion1 hp)
    cop0 := fun hp => extractLsb'_of_and_eq h (hcop0 hp)
    cop0Op := fun hp hrs => extractLsb'_of_and_eq h (hcop0Op hp hrs) }

theorem decode_pattern_mnemonic : ∀ r ∈ opcodeTable, (decode r.pattern).mnemonic? = some r.mnemonic := by decide

/-! ## The obligations about the table -/

/-- Settles O5: a word of a row decodes to the row's mnemonic as the row's pattern does, whose dispatch keys it has;
and a decoded word lies in the row of its instruction, which its mnemonic fixes. -/
theorem decodeAgreesWithOpcodeTable : Obligations.DecodeAgreesWithOpcodeTable := by
  unfold Obligations.DecodeAgreesWithOpcodeTable
  intro w r hr
  constructor
  · intro h
    rw [← mnemonic?_eq_some_iff, (sameKeys_of_row hr h).decode_mnemonic, decode_pattern_mnemonic r hr]
  · rintro ⟨i, hdecode, hmnemonic⟩
    rw [← row_eq_of_mem hr hmnemonic]
    exact and_mask_of_decode hdecode

/-- Settles O6: a word of two rows decodes to one instruction, so both are the row of its mnemonic. -/
theorem opcodeRowsExclusive : Obligations.OpcodeRowsExclusive := by
  unfold Obligations.OpcodeRowsExclusive
  refine ⟨by decide, fun w r hr q hq hwr hwq => ?_⟩
  obtain ⟨i, hi, hir⟩ := (decodeAgreesWithOpcodeTable w r hr).1 hwr
  obtain ⟨j, hj, hjq⟩ := (decodeAgreesWithOpcodeTable w q hq).1 hwq
  obtain rfl : i = j := Decoded.instr.inj (hi.symm.trans hj)
  rw [← row_eq_of_mem hr hir, row_eq_of_mem hq hjq]

/-- Settles O8: the decoder run on the thirteen words. -/
theorem sampleWordsDecode : Obligations.SampleWordsDecode := by
  unfold Obligations.SampleWordsDecode
  decide

end Sys2Proof
end

section
/-! Bus calls in the frame relation `LoadsRegister`: a device call and a draw of a free value change nothing but their own
record, which is a load of register 0. -/

namespace Sys2Proof.Machine

theorem sameRegs_iff_regs_zero {s t : State} {v : Word} :
    (∀ q, t.reg q = if q = 0 ∧ (0 : Reg) ≠ 0 then v else s.reg q) ↔ SameRegs s t := by
  simp [SameRegs]

theorem LoadsRegister.sameRegs {s t : State} {v : Word} {calls : List DevCall} {k : Nat}
    (h : LoadsRegister 0 v calls k s t) : SameRegs s t := sameRegs_iff_regs_zero.1 h.regs

theorem loadsRegister_logDevCall (s : State) (c : DevCall) : LoadsRegister 0 0 [c] 0 s (s.logDevCall c) where
  regs := sameRegs_iff_regs_zero.2 (reg_congr rfl)
  pcs := ⟨rfl, rfl, rfl⟩
  hiLo := ⟨rfl, rfl⟩
  cp0 := cp0Word_congr rfl
  memory a i := congrArg (Memory.read · i) (array_congr rfl rfl rfl a)
  halt := rfl
  params := rfl
  devCalls := rfl
  draws := rfl

/-- One more free value taken. -/
theorem LoadsRegister.countDraw {s t : State} {rd : Reg} {v : Word} {calls : List DevCall} {k : Nat}
    (h : LoadsRegister rd v calls k s t) : LoadsRegister rd v calls (k + 1) s t.countDraw where
  regs := h.regs
  pcs := h.pcs
  hiLo := h.hiLo
  cp0 := h.cp0
  memory := h.memory
  halt := h.halt
  params := h.params
  devCalls := h.devCalls
  draws := congrArg (· + 1) h.draws

/-- Bus calls followed by a load: the calls and the draws add up. -/
theorem LoadsRegister.trans {s t u : State} {rd : Reg} {v v' : Word} {calls calls' : List DevCall} {k k' : Nat}
    (h : LoadsRegister 0 v' calls k s t) (h' : LoadsRegister rd v calls' k' t u) :
    LoadsRegister rd v (calls ++ calls') (k + k') s u where
  regs q := by rw [h'.regs q, h.sameRegs q]
  pcs := h.pcs.trans h'.pcs
  hiLo := ⟨h'.hiLo.1.trans h.hiLo.1, h'.hiLo.2.trans h.hiLo.2⟩
  cp0 q := (h'.cp0 q).trans (h.cp0 q)
  memory a i := (h'.memory a i).trans (h.memory a i)
  halt := h'.halt.trans h.halt
  params := h'.params.trans h.params
  devCalls := by rw [h'.devCalls, h.devCalls, List.append_assoc]
  draws := by rw [h'.draws, h.draws, Nat.add_assoc]

/-- A fetch that gives a word changes nothing but the record of device calls and the draw counter. -/
theorem loadsRegister_of_fetch_word {s t : State} {w : Word} (h : fetch s = .word w t) :
    ∃ calls k, LoadsRegister 0 0 calls k s t := by
  obtain ⟨-, rfl | ⟨d, rfl | rfl⟩⟩ := fetch_word h
  · exact ⟨_, _, writesRegister_zero _⟩
  · exact ⟨_, _, loadsRegister_logDevCall s _⟩
  · exact ⟨_, _, (loadsRegister_logDevCall s _).countDraw⟩

end Sys2Proof.Machine
end

section
/-! The step (40_cycle.md R110 to R114): what every step keeps, where it exists, and what it does when the fetch traps,
finds no region, or reads a word that is no instruction. -/

namespace Sys2Proof.Machine

/-! ## What every step keeps -/

theorem keeps_setHalted (s : State) (r : HaltReason) : Keeps s (s.setHalted r) := ⟨rfl, rfl, rfl, rfl, id⟩

theorem keeps_logDevCall (s : State) (c : DevCall) : Keeps s (s.logDevCall c) := ⟨rfl, rfl, rfl, rfl, id⟩

theorem keeps_of_fetch_word {s t : State} {w : Word} (h : fetch s = .word w t) : Keeps s t := by
  obtain ⟨-, rfl | ⟨d, rfl | rfl⟩⟩ := fetch_word h
  · exact Keeps.refl _
  · exact keeps_logDevCall s _
  · exact (keeps_logDevCall s _).trans (keeps_countDraw _)

theorem keeps_of_fetch_ended {s t : State} (h : fetch s = .ended t) : Keeps s t := by
  obtain ⟨-, rfl⟩ | ⟨-, rfl⟩ := fetch_ended h
  · exact keeps_raiseExc .adEL s
  · exact keeps_setHalted s _

/-- Up to `current_pc`, which stays or becomes the aligned address that was fetched from, a step keeps what every
instruction keeps. -/
theorem step_keeps {s t : State} (h : step s = .next t) :
    ∃ c : Word, (c = s.currentPc ∨ (c = s.pc ∧ aligned s.pc .word = true)) ∧ Keeps { s with currentPc := c } t := by
  have advanced {w : Word} {u v : State} (hfetch : fetch s = .word w u) (hkeeps : Keeps (advance u) v) :
      ∃ c : Word, (c = s.currentPc ∨ (c = s.pc ∧ aligned s.pc .word = true)) ∧ Keeps { s with currentPc := c } v := by
    obtain ⟨hrom, hparams, -, hzero, harrays⟩ := keeps_of_fetch_word hfetch
    obtain ⟨_, _, hframe⟩ := loadsRegister_of_fetch_word hfetch
    have hadvance : Keeps { s with currentPc := s.pc } (advance u) := ⟨hrom, hparams, hframe.pcs.1, hzero, harrays⟩
    exact ⟨s.pc, .inr ⟨rfl, (fetch_word hfetch).1⟩, hadvance.trans hkeeps⟩
  obtain ⟨-, hended | ⟨w, u, why, hfetch, -, rfl⟩ | ⟨w, u, i, hfetch, -, hexec⟩⟩ := step_next h
  · exact ⟨s.currentPc, .inl rfl, keeps_of_fetch_ended hended⟩
  · exact advanced hfetch (keeps_setHalted _ _)
  · exact advanced hfetch (keeps_of_exec hexec)

/-- Settles O15: the invariant speaks of what every step keeps, and of `current_pc`, which stays or becomes the aligned
address that was fetched from. -/
theorem stepKeepsInvariant : Obligations.StepKeepsInvariant := by
  unfold Obligations.StepKeepsInvariant
  intro s t hinv h
  obtain ⟨c, hc, hkeeps⟩ := step_keeps h
  refine ⟨hkeeps.arraysWf hinv.arrays, hkeeps.zeroSlot.trans hinv.zeroSlot, ?params, ?currentPc⟩
  case params => rw [hkeeps.params]; exact hinv.params
  case currentPc =>
    rw [hkeeps.currentPc]
    obtain rfl | ⟨rfl, haligned⟩ := hc
    · exact hinv.currentPcAligned
    · exact (aligned_iff s.pc .word).1 haligned

/-- Settles O17: ROM and the parameters are among what every step keeps. -/
theorem romAndParametersNeverChange : Obligations.RomAndParametersNeverChange := by
  unfold Obligations.RomAndParametersNeverChange
  intro s t h
  obtain ⟨c, -, hkeeps⟩ := step_keeps h
  exact ⟨fun k => congrArg (Memory.read · k) hkeeps.rom, hkeeps.params⟩

/-- Settles O16: every clause is computed, for the 17 default rows as for the rest. -/
theorem resetMeetsInvariant : Obligations.ResetMeetsInvariant := by
  unfold Obligations.ResetMeetsInvariant
  exact ⟨by decide, by decide, by decide, by decide⟩

/-! ## Where a step exists -/

/-- From a running state a step answers a next state, whatever the fetch gives. -/
theorem step_of_running {s : State} (h : s.halt = .running) : ∃ t, step s = .next t := by
  cases hfetch : fetch s with
  | ended t => exact ⟨t, step_ended h hfetch⟩
  | word w u =>
    cases hdecode : decode w with
    | unimplemented why => exact ⟨_, step_unimplemented h hfetch hdecode⟩
    | instr i =>
      obtain ⟨t, hexec, -⟩ := exec_keeps i (advance u)
      exact ⟨t, (step_instr h hfetch hdecode).trans hexec⟩

/-- Settles O13: a running state has a next state, and a latched one the fault. -/
theorem stepExistsExactlyWhileRunning : Obligations.StepExistsExactlyWhileRunning := by
  unfold Obligations.StepExistsExactlyWhileRunning
  intro s
  refine ⟨⟨fun ⟨t, h⟩ => (step_next h).1, step_of_running⟩, fun r hrefused => ?refused, fun r => step_latched⟩
  case refused =>
    cases hhalt : s.halt with
    | running =>
      obtain ⟨t, ht⟩ := step_of_running hhalt
      exact absurd (ht.symm.trans hrefused) (by simp)
    | halted r' => exact absurd ((step_latched hhalt).symm.trans hrefused) (by simp)

/-! ## The fetch that traps or halts, and the word that is no instruction -/

theorem aligned_word_iff (addr : Word) : aligned addr .word = true ↔ addr.toNat % 4 = 0 := aligned_iff addr .word

/-- A misaligned `pc` is not the aligned address after `current_pc`, so the delay-slot heuristic fires (R111, R226). -/
theorem savedPc_of_misaligned {s : State} (hpc : s.pc.toNat % 4 ≠ 0) (hcur : s.currentPc.toNat % 4 = 0) :
    savedPc s = s.currentPc - 4 := by
  refine if_pos fun hnext => hpc ?_
  have hfour : (s.currentPc + 4).toNat = (s.currentPc.toNat + 4) % 2 ^ 32 := BitVec.toNat_add _ _
  rw [hnext, hfour]
  omega

/-- Settles O10: the fetch ends the step with the exception entry of the state before the advance. -/
theorem misalignedFetchTraps : Obligations.MisalignedFetchTraps := by
  unfold Obligations.MisalignedFetchTraps
  intro s hrunning hpc
  have hfetch : fetch s = .ended (raiseExc .adEL s) := 
    fetch_misaligned (Bool.not_eq_true _ ▸ mt (aligned_word_iff s.pc).1 hpc)
  refine ⟨_, step_ended hrunning hfetch, entersException_raiseExc .adEL s, sameRegs_raiseExc .adEL s, fun hcur => ?_⟩
  rw [raiseExc_epc, savedPc_of_misaligned hpc hcur]

theorem halts_setHalted (s : State) (r : HaltReason) : Halts r s (s.setHalted r) where
  halt := rfl
  regs := reg_congr rfl
  pcs := ⟨rfl, rfl, rfl⟩
  hiLo := ⟨rfl, rfl⟩
  cp0 := cp0Word_congr rfl
  memory a i := congrArg (Memory.read · i) (array_congr rfl rfl rfl a)
  outside := ⟨rfl, rfl, rfl⟩

/-- Settles O11: the fetch ends the step with the latch set. -/
theorem unmappedFetchHalts : Obligations.UnmappedFetchHalts := by
  unfold Obligations.UnmappedFetchHalts
  intro s hrunning hpc hunmapped
  have hfetch := fetch_unmapped ((aligned_word_iff s.pc).2 hpc) hunmapped
  exact ⟨_, step_ended hrunning hfetch, halts_setHalted s _⟩

/-! ## From the fetched word to the state that runs it -/

/-- All but the program counters and the model's own records is as before. -/
structure SameButPcs (s t : State) : Prop where
  regs : SameRegs s t
  hiLo : SameHiLo s t
  cp0 : SameCp0 s t
  memory : SameMemory s t
  halt : t.halt = s.halt
  params : t.params = s.params

theorem sameButPcs_advance (s : State) : SameButPcs s (advance s) where
  regs := reg_congr rfl
  hiLo := ⟨rfl, rfl⟩
  cp0 := cp0Word_congr rfl
  memory a i := congrArg (Memory.read · i) (array_congr rfl rfl rfl a)
  halt := rfl
  params := rfl

theorem SameButPcs.trans {s t u : State} (h : SameButPcs s t) (h' : SameButPcs t u) : SameButPcs s u where
  regs q := (h'.regs q).trans (h.regs q)
  hiLo := ⟨h'.hiLo.1.trans h.hiLo.1, h'.hiLo.2.trans h.hiLo.2⟩
  cp0 k := (h'.cp0 k).trans (h.cp0 k)
  memory a i := (h'.memory a i).trans (h.memory a i)
  halt := h'.halt.trans h.halt
  params := h'.params.trans h.params

theorem LoadsRegister.sameButPcs {s t : State} {calls : List DevCall} {k : Nat}
    (h : LoadsRegister 0 0 calls k s t) : SameButPcs s t :=
  ⟨h.sameRegs, h.hiLo, h.cp0, h.memory, h.halt, h.params⟩

/-- What stages 1 and 2 of the step leave for stage 3 (R110): `current_pc` is the address of the fetched word. -/
theorem advance_of_fetch_word {s u : State} {w : Word} (h : fetch s = .word w u) :
    SameButPcs s (advance u) ∧ (advance u).currentPc = s.pc ∧ (advance u).pc = s.nextPc ∧
      (advance u).nextPc = s.nextPc + 4 := by
  obtain ⟨_, _, hframe⟩ := loadsRegister_of_fetch_word h
  obtain ⟨hpc, hnextPc, -⟩ := hframe.pcs
  exact ⟨hframe.sameButPcs.trans (sameButPcs_advance u), hpc, hnextPc, congrArg (· + 4) hnextPc⟩

/-- Settles O12: the latch is set in the advanced state, and `halts_setHalted` is its frame. -/
theorem unimplementedEncodingHalts : Obligations.UnimplementedEncodingHalts := by
  unfold Obligations.UnimplementedEncodingHalts
  intro s u w why hrunning hfetch hdecode
  obtain ⟨hframe, hcur, hpc, hnextPc⟩ := advance_of_fetch_word hfetch
  refine ⟨_, step_unimplemented hrunning hfetch hdecode, ?halt, hcur, hpc, hnextPc, hframe.regs, hframe.hiLo,
    hframe.cp0, hframe.memory, hframe.params⟩
  case halt => rw [haltUnimplemented, hcur, setHalted_halt]

/-! ## The step that runs a fetched instruction -/

theorem decode_zero : decode 0 = .instr (.sll 0 0 0) := by decide

/-- Settles O9: the word is what the array's four bytes make, or the device's answer. -/
theorem stepRunsDecodedInstruction : Obligations.StepRunsDecodedInstruction := by
  unfold Obligations.StepRunsDecodedInstruction
  refine ⟨?array, ?stub, ?oracle⟩
  case array =>
    intro s a i rest hrunning hreach hbytes
    obtain ⟨hdecode, -⟩ := Prod.mk.inj hbytes
    exact step_instr hrunning (fetch_array hreach.1 hreach.2) hdecode
  case stub =>
    intro s d hrunning haligned hdev hstub
    exact step_instr hrunning (fetch_stub haligned hdev hstub) decode_zero
  case oracle =>
    rintro s u d w hrunning haligned hdev horacle rfl rfl
    have hfetch := fetch_oracle haligned hdev horacle
    exact ⟨fun _ => step_instr hrunning hfetch, fun _ => step_unimplemented hrunning hfetch⟩

/-! ## The first step after the host's load (70_reset_and_hazards.md R253, R254) -/

theorem reaches_reset_pc : Reaches State.reset State.reset.pc .word .rom := ⟨by decide, by decide⟩

/-- The state after reset with a BIOS image loaded. -/
def State.booted (image : List Byte) : State := State.reset.setArray .rom (Memory.ofBytes image 0)

theorem cell_booted {image : List Byte} {k : Nat} (hk : k < image.length) :
    (State.booted image).cell .rom k = image[k] := by
  rw [State.cell, State.booted, array_setArray, if_pos rfl, read_ofBytes, if_pos k.zero_le, Nat.sub_zero,
    List.getD_eq_getElem?_getD, List.getElem?_eq_getElem hk, Option.getD_some]

/-- Settles O3: RESET_PC reaches ROM byte 0, so the first step is the array clause of O9. -/
theorem firstStepRunsBiosWord : Obligations.FirstStepRunsBiosWord := by
  unfold Obligations.FirstStepRunsBiosWord
  refine fun image => ⟨fun h => if_neg h, fun h i hdecode => ?_⟩
  refine ⟨State.booted image, if_pos h, fun k hk => cell_booted hk, ?_⟩
  obtain ⟨harray, -, -⟩ := stepRunsDecodedInstruction
  have hindex : localIndex .rom (State.booted image).pc = 0 := by rw [State.booted, setArray_pc]; decide
  refine harray (State.booted image) .rom i [] rfl reaches_reset_pc ?_
  rw [hindex, cell_booted (by omega), cell_booted (by omega), cell_booted (by omega), cell_booted (by omega),
    decodeBytes]
  exact congrArg (·, []) hdecode

end Sys2Proof.Machine
end

section
/-! Loads and stores (47_load_store.md R190 to R203): what an access answers, by where it is routed; the extended and
merged words byte by byte; and what each instruction does with them. -/

namespace Sys2Proof.Machine

/-! ## What an aligned read answers -/

/-- The read answers `w`; the bus calls `calls` left the block, `k` free values were taken, and nothing else changed. -/
def ReadAnswers (s : State) (addr : Word) (n : Width) (w : Word) (calls : List DevCall) (k : Nat) : Prop :=
  ∃ u, memRead .load addr n s = .value w u ∧ LoadsRegister 0 0 calls k s u

theorem readAnswers_of_reaches {s : State} {addr : Word} {n : Width} {a : ArrayId} (h : Reaches s addr n a) :
    ReadAnswers s addr n (readLE (s.array a) (localIndex a addr) n) [] 0 :=
  ⟨s, memRead_array h.1 h.2, writesRegister_zero s⟩

theorem toNat_truncTo (n : Width) (v : Word) : (truncTo n v).toNat = v.toNat % 2 ^ (8 * widthBytes n) := by
  cases n <;> simp only [truncTo, widthBytes, BitVec.toNat_setWidth] <;> omega

/-- A device's answer of `8n` bits is the value cut to that width. -/
theorem eq_truncTo_of_toNat {n : Width} {v a : Word} (h : a.toNat = v.toNat % 2 ^ (8 * widthBytes n)) :
    a = truncTo n v :=
  BitVec.eq_of_toNat_eq (h.trans (toNat_truncTo n v).symm)

theorem readAnswers_of_dev {s : State} {addr : Word} {n : Width} {d : Dev} {a : Word} {k : Nat}
    (haligned : aligned addr n = true) (hdev : classify s.params.regions addr = some (.dev d))
    (h : DevAnswers s d n addr a k) : ReadAnswers s addr n a [.load d n addr] k := by
  rw [ReadAnswers, memRead_dev haligned hdev, devLoad]
  obtain ⟨hstub, rfl, rfl⟩ | ⟨horacle, ha, rfl⟩ := h
  · rw [hstub]
    exact ⟨_, rfl, loadsRegister_logDevCall s _⟩
  · rw [horacle, eq_truncTo_of_toNat ha]
    exact ⟨_, rfl, (loadsRegister_logDevCall s _).countDraw⟩

/-- A device always answers (R62). -/
theorem exists_devAnswers (s : State) (d : Dev) (n : Width) (addr : Word) : ∃ a k, DevAnswers s d n addr a k := by
  cases hdev : s.params.dev with
  | stub => exact ⟨0, 0, .inl ⟨hdev, rfl, rfl⟩⟩
  | oracle => exact ⟨truncTo n (Config.devLoad s.draws d n addr), 1, .inr ⟨hdev, toNat_truncTo n _, rfl⟩⟩

/-- The register write at the end of a load (R190). -/
theorem ReadAnswers.finishLoad {s : State} {addr : Word} {n : Width} {w : Word} {calls : List DevCall} {k : Nat}
    (h : ReadAnswers s addr n w calls k) (rt : Reg) (extend : Word → Word) :
    LoadsRegister rt (extend w) calls k s (finishLoad rt extend (memRead .load addr n s)) := by
  obtain ⟨u, hread, hframe⟩ := h
  rw [hread]
  have hwrite := hframe.trans (writesRegister_setReg u rt (extend w))
  rwa [List.append_nil] at hwrite

/-! ## Extended words as numbers -/

theorem byteOf_zero_eq_setWidth (v : Word) : byteOf v 0 = v.setWidth 8 := by
  rw [BitVec.setWidth_eq_extractLsb' (by decide), byteOf]

/-- The low halfword is two bytes. -/
theorem setWidth_sixteen (v : Word) : v.setWidth 16 = byteOf v 1 ++ byteOf v 0 := by
  have happend : v.extractLsb' 8 8 ++ v.extractLsb' 0 8 = v.extractLsb' 0 (8 + 8) :=
    BitVec.extractLsb'_append_extractLsb'_eq_extractLsb' rfl
  rw [BitVec.setWidth_eq_extractLsb' (by decide), byteOf, byteOf]
  exact happend.symm

theorem toInt_sextByte (v : Word) : (sextByte v).toInt = (byteOf v 0).toInt := by
  rw [sextByte, byteOf_zero_eq_setWidth, BitVec.toInt_signExtend_of_le (by decide)]

theorem toNat_truncTo_byte (v : Word) : (truncTo .byte v).toNat = (byteOf v 0).toNat := by
  rw [truncTo, byteOf_zero_eq_setWidth, BitVec.toNat_setWidth_of_le (by decide)]

theorem toInt_append_bytes (h l : Byte) : (h ++ l).toInt = 2 ^ 8 * h.toInt + l.toNat :=
  BitVec.toInt_append

theorem toNat_append_bytes {n : Nat} (h : BitVec n) (l : Byte) : (h ++ l).toNat = 2 ^ 8 * h.toNat + l.toNat := by
  rw [BitVec.toNat_append, Nat.shiftLeft_eq, Nat.mul_comm, Nat.two_pow_add_eq_or_of_lt l.isLt]

theorem toInt_sextHalf (v : Word) : (sextHalf v).toInt = 2 ^ 8 * (byteOf v 1).toInt + (byteOf v 0).toNat := by
  rw [sextHalf, setWidth_sixteen, BitVec.toInt_signExtend_of_le (by decide), toInt_append_bytes]

theorem toNat_truncTo_half (v : Word) :
    (truncTo .half v).toNat = 2 ^ 8 * (byteOf v 1).toNat + (byteOf v 0).toNat := by
  rw [truncTo, setWidth_sixteen, BitVec.toNat_setWidth_of_le (by decide), toNat_append_bytes]

theorem toNat_eq_bytes (v : Word) :
    v.toNat = 2 ^ 24 * (byteOf v 3).toNat + 2 ^ 16 * (byteOf v 2).toNat + 2 ^ 8 * (byteOf v 1).toNat +
      (byteOf v 0).toNat := by
  have h : v.toNat = (wordOfBytes (byteOf v 0) (byteOf v 1) (byteOf v 2) (byteOf v 3)).toNat := by
    rw [wordOfBytes_byteOf]
  rw [h, wordOfBytes, toNat_append_bytes, toNat_append_bytes, toNat_append_bytes]
  omega

/-! ## Merged words byte by byte (the tables of R198 to R201) -/

theorem byteOf_and (v w : Word) (j : Nat) : byteOf (v &&& w) j = byteOf v j &&& byteOf w j := BitVec.extractLsb'_and

theorem byteOf_or (v w : Word) (j : Nat) : byteOf (v ||| w) j = byteOf v j ||| byteOf w j := BitVec.extractLsb'_or

theorem byteOf_shiftLeft (w : Word) {n j : Nat} (hn : n % 8 = 0) (hj : j < 4) :
    byteOf (w <<< n) j = if n / 8 ≤ j then byteOf w (j - n / 8) else 0 := by
  apply BitVec.eq_of_getLsbD_eq
  intro b hb
  simp only [byteOf, BitVec.getLsbD_extractLsb', BitVec.getLsbD_shiftLeft, hb, decide_true, Bool.true_and]
  split
  · next h =>
    rw [decide_eq_true (by omega : 8 * j + b < 32), decide_eq_false (by omega : ¬ 8 * j + b < n),
      BitVec.getLsbD_extractLsb', decide_eq_true hb]
    simp only [Bool.not_false, Bool.true_and]
    congr 1; omega
  · next h => simp [decide_eq_true (by omega : 8 * j + b < n)]

theorem byteOf_ushiftRight (w : Word) {n : Nat} (j : Nat) (hn : n % 8 = 0) :
    byteOf (w >>> n) j = if j + n / 8 < 4 then byteOf w (j + n / 8) else 0 := by
  apply BitVec.eq_of_getLsbD_eq
  intro b hb
  simp only [byteOf, BitVec.getLsbD_extractLsb', BitVec.getLsbD_ushiftRight, hb, decide_true, Bool.true_and,
    show n + (8 * j + b) = 8 * (j + n / 8) + b by omega]
  split
  · rw [BitVec.getLsbD_extractLsb', decide_eq_true hb, Bool.true_and]
  · rw [BitVec.getLsbD_of_ge _ _ (by omega)]
    simp

theorem byte_and_ones (b : Byte) : b &&& 255#8 = b := BitVec.and_allOnes

/-- A word has four bytes. -/
theorem eq_of_lt_four {j : Nat} (hj : j < 4) : j = 0 ∨ j = 1 ∨ j = 2 ∨ j = 3 := by omega

theorem byteOf_mergeLwl (k : BitVec 2) (r m : Word) {j : Nat} (hj : j < 4) :
    byteOf (mergeLwl k r m) j = if 3 ≤ j + k.toNat then byteOf m (j + k.toNat - 3) else byteOf r j := by
  match k with
  | 0#2 | 1#2 | 2#2 | 3#2 =>
    obtain rfl | rfl | rfl | rfl := eq_of_lt_four hj <;> simp [mergeLwl, byteOf_or, byteOf_and, byteOf_shiftLeft] <;> simp [byteOf, byte_and_ones]

theorem byteOf_mergeLwr (k : BitVec 2) (r m : Word) {j : Nat} (hj : j < 4) :
    byteOf (mergeLwr k r m) j = if j + k.toNat < 4 then byteOf m (j + k.toNat) else byteOf r j := by
  match k with
  | 0#2 | 1#2 | 2#2 | 3#2 =>
    obtain rfl | rfl | rfl | rfl := eq_of_lt_four hj <;> simp [mergeLwr, byteOf_or, byteOf_and, byteOf_ushiftRight] <;> simp [byteOf, byte_and_ones]

theorem byteOf_mergeSwl (k : BitVec 2) (r m : Word) {j : Nat} (hj : j < 4) :
    byteOf (mergeSwl k r m) j = if j ≤ k.toNat then byteOf r (3 - k.toNat + j) else byteOf m j := by
  match k with
  | 0#2 | 1#2 | 2#2 | 3#2 =>
    obtain rfl | rfl | rfl | rfl := eq_of_lt_four hj <;> simp [mergeSwl, byteOf_or, byteOf_and, byteOf_ushiftRight] <;> simp [byteOf, byte_and_ones]

theorem byteOf_mergeSwr (k : BitVec 2) (r m : Word) {j : Nat} (hj : j < 4) :
    byteOf (mergeSwr k r m) j = if k.toNat ≤ j then byteOf r (j - k.toNat) else byteOf m j := by
  match k with
  | 0#2 | 1#2 | 2#2 | 3#2 =>
    obtain rfl | rfl | rfl | rfl := eq_of_lt_four hj <;> simp [mergeSwr, byteOf_or, byteOf_and, byteOf_shiftLeft] <;> simp [byteOf, byte_and_ones]

theorem toNat_lowBits (ea : Word) : (lowBits ea).toNat = ea.toNat % 4 := by
  rw [lowBits, BitVec.extractLsb'_toNat, Nat.shiftRight_zero]

end Sys2Proof.Machine
end

section
/-! Loads (47_load_store.md R190 to R195, R198, R199, R203), from an array, from a device window, and misaligned. -/

namespace Sys2Proof.Machine

/-! ## From an array -/

/-- Settles O44: the byte at the local index is the low byte of what the read answers. -/
theorem byteLoads : Obligations.ByteLoads := by
  unfold Obligations.ByteLoads
  intro rt rs imm s a harray
  have hread := readAnswers_of_reaches ⟨aligned_byte (effAddr s rs imm), harray⟩
  have hbyte : byteOf (readLE (s.array a) (localIndex a (effAddr s rs imm)) .byte) 0 =
      s.cell a (localIndex a (effAddr s rs imm)) := byteOf_readLE _ _ .byte (by decide)
  refine ⟨⟨_, _, rfl, hread.finishLoad rt sextByte, ?lb⟩, ⟨_, _, rfl, hread.finishLoad rt (truncTo .byte), ?lbu⟩⟩
  case lb => rw [toInt_sextByte, hbyte]
  case lbu => rw [toNat_truncTo_byte, hbyte]

/-- Settles O45: the bytes from the local index up are the bytes of what the read answers, lowest first. -/
theorem alignedHalfAndWordLoads : Obligations.AlignedHalfAndWordLoads := by
  unfold Obligations.AlignedHalfAndWordLoads
  rintro rt rs imm s a i rfl
  refine ⟨fun hreach => ?half, fun hreach => ?word⟩
  case half =>
    have hread := readAnswers_of_reaches hreach
    have hbyte (k : Nat) (hk : k < 2) := byteOf_readLE (s.array a) (localIndex a (effAddr s rs imm)) .half
      (k := k) (by omega)
    refine ⟨⟨_, _, rfl, hread.finishLoad rt sextHalf, ?lh⟩, ⟨_, _, rfl, hread.finishLoad rt (truncTo .half), ?lhu⟩⟩
    case lh => rw [toInt_sextHalf, hbyte 0 (by omega), hbyte 1 (by omega)]; rfl
    case lhu => rw [toNat_truncTo_half, hbyte 0 (by omega), hbyte 1 (by omega)]; rfl
  case word =>
    have hread := readAnswers_of_reaches hreach
    have hbyte (k : Nat) (hk : k < 4) := byteOf_readLE (s.array a) (localIndex a (effAddr s rs imm)) .word hk
    refine ⟨_, _, rfl, hread.finishLoad rt (truncTo .word), ?lw⟩
    rw [truncTo, toNat_eq_bytes, hbyte 0 (by omega), hbyte 1 (by omega), hbyte 2 (by omega), hbyte 3 (by omega)]
    rfl

/-- Settles O50: the merge tables, byte by byte, on what the read of the aligned word answers. -/
theorem unalignedLoadMerges : Obligations.UnalignedLoadMerges := by
  unfold Obligations.UnalignedLoadMerges
  rintro rt rs imm s a i k harray rfl rfl
  have hread := readAnswers_of_reaches ⟨aligned_alignedAddr (effAddr s rs imm), harray⟩
  have hbyte (j : Nat) (hj : j < 4) :
      byteOf (readLE (s.array a) (localIndex a (alignedAddr (effAddr s rs imm))) .word) j =
        s.cell a (localIndex a (alignedAddr (effAddr s rs imm)) + j) :=
    (byteOf_readLE _ _ .word hj).trans (if_pos hj)
  refine ⟨⟨_, _, rfl, hread.finishLoad rt _, fun j hj => ?lwl⟩, ⟨_, _, rfl, hread.finishLoad rt _, fun j hj => ?lwr⟩⟩
  case lwl =>
    rw [byteOf_mergeLwl _ _ _ hj, toNat_lowBits]
    split
    · exact hbyte _ (by omega)
    · rfl
  case lwr =>
    rw [byteOf_mergeLwr _ _ _ hj, toNat_lowBits]
    split
    · next h => exact hbyte _ h
    · rfl

/-! ## Misaligned -/

theorem EntersException.setReg {code : Nat} {s t : State} (h : EntersException code s t) (r : Reg) (v : Word) :
    EntersException code s (t.setReg r v) where
  pc := by rw [setReg_pc, h.pc]
  nextPc := by rw [setReg_nextPc, setReg_pc, h.nextPc]
  sr k hk := by rw [State.sr, cp0Word_setReg, ← State.sr, h.sr k hk]
  cause := by rw [State.cause, cp0Word_setReg, ← State.cause, h.cause]
  epc := by rw [State.epc, cp0Word_setReg, ← State.epc, h.epc]
  cp0 k h12 h13 h14 := by rw [cp0Word_setReg, h.cp0 k h12 h13 h14]
  currentPc := by rw [setReg_currentPc, h.currentPc]
  hiLo := by simpa [SameHiLo] using h.hiLo
  memory a i := by rw [State.cell, array_setReg, ← State.cell, h.memory]
  outside := by simpa [SameOutside] using h.outside

/-- A misaligned load enters the exception and then writes what it makes of the dummy value 0 (D9). -/
theorem finishLoad_of_misaligned {s : State} {addr : Word} {n : Width} {extend : Word → Word} (rt : Reg)
    (h : addr.toNat % widthBytes n ≠ 0) (hzero : extend 0 = 0) :
    EntersException 4 s (finishLoad rt extend (memRead .load addr n s)) ∧
      ∀ q, (finishLoad rt extend (memRead .load addr n s)).reg q = if q = rt then 0 else s.reg q := by
  rw [memRead_misaligned (Bool.not_eq_true _ ▸ mt (aligned_iff addr n).1 h), finishLoad, hzero]
  refine ⟨(entersException_raiseExc .adEL s).setReg rt 0, fun q => ?_⟩
  rw [reg_setReg, raiseExc_reg]
  by_cases hq : q = rt
  · by_cases hq0 : q = 0 <;> simp [hq0, ← hq]
  · simp [hq]

/-- Settles O46: each of the three extensions of the dummy value 0 is 0. -/
theorem misalignedLoadsTrap : Obligations.MisalignedLoadsTrap := by
  unfold Obligations.MisalignedLoadsTrap
  intro rt rs imm s
  refine ⟨fun h => ⟨⟨_, rfl, ?lh⟩, ⟨_, rfl, ?lhu⟩⟩, fun h => ⟨_, rfl, ?lw⟩⟩
  case lh => exact finishLoad_of_misaligned rt h (by decide)
  case lhu => exact finishLoad_of_misaligned rt h (by decide)
  case lw => exact finishLoad_of_misaligned rt h rfl

/-! ## From a device window -/

/-- What a device answers fits the width of the access, so the zero-extending loads take it as it is. -/
theorem truncTo_of_devAnswers {s : State} {d : Dev} {n : Width} {addr a : Word} {k : Nat}
    (h : DevAnswers s d n addr a k) : truncTo n a = a := by
  have hlt : a.toNat < 2 ^ (8 * widthBytes n) := by
    obtain ⟨-, rfl, -⟩ | ⟨-, ha, -⟩ := h
    · exact Nat.two_pow_pos _
    · exact ha ▸ Nat.mod_lt _ (Nat.two_pow_pos _)
  exact (eq_truncTo_of_toNat (Nat.mod_eq_of_lt hlt).symm).symm

/-- Settles O48: as from an array, with the device's answer for what the read gives. -/
theorem peripheralLoads : Obligations.PeripheralLoads := by
  unfold Obligations.PeripheralLoads
  rintro rt rs imm s d ea al rfl rfl
  refine ⟨fun hdev => ⟨fun a k ha => ?byte, fun a k haligned ha => ?half, fun a k haligned ha => ?word⟩,
    fun hdev a k ha => ?merge⟩
  case byte =>
    have hread := readAnswers_of_dev (aligned_byte _) hdev ha
    have hzext := hread.finishLoad rt (truncTo .byte)
    rw [truncTo_of_devAnswers ha] at hzext
    exact ⟨⟨_, _, rfl, hread.finishLoad rt sextByte, toInt_sextByte a⟩, ⟨_, rfl, hzext⟩⟩
  case half =>
    have hread := readAnswers_of_dev ((aligned_iff _ .half).2 haligned) hdev ha
    have hzext := hread.finishLoad rt (truncTo .half)
    rw [truncTo_of_devAnswers ha] at hzext
    exact ⟨⟨_, _, rfl, hread.finishLoad rt sextHalf, toInt_sextHalf a⟩, ⟨_, rfl, hzext⟩⟩
  case word =>
    have hread := readAnswers_of_dev ((aligned_iff _ .word).2 haligned) hdev ha
    exact ⟨_, rfl, hread.finishLoad rt (truncTo .word)⟩
  case merge =>
    have hread := readAnswers_of_dev (aligned_alignedAddr _) hdev ha
    refine ⟨⟨_, _, rfl, hread.finishLoad rt _, fun j hj => ?lwl⟩, ⟨_, _, rfl, hread.finishLoad rt _, fun j hj => ?lwr⟩⟩
    case lwl => rw [byteOf_mergeLwl _ _ _ hj, toNat_lowBits]
    case lwr => rw [byteOf_mergeLwr _ _ _ hj, toNat_lowBits]

/-! ## The pair `lwr`, `lwl` -/

theorem eq_of_byteOf_eq {v w : Word} (h : ∀ j, j < 4 → byteOf v j = byteOf w j) : v = w := by
  rw [← wordOfBytes_byteOf v, ← wordOfBytes_byteOf w, h 0 (by omega), h 1 (by omega), h 2 (by omega), h 3 (by omega)]

/-- Two writes to one register: the second one counts. -/
theorem WritesRegister.trans {s t u : State} {rd : Reg} {v v' : Word} (h : WritesRegister rd v' s t)
    (h' : WritesRegister rd v t u) : WritesRegister rd v s u where
  regs q := by
    rw [h'.regs q, h.regs q]
    split <;> rfl
  pcs := h.pcs.trans h'.pcs
  hiLo := ⟨h'.hiLo.1.trans h.hiLo.1, h'.hiLo.2.trans h.hiLo.2⟩
  cp0 q := (h'.cp0 q).trans (h.cp0 q)
  memory a i := (h'.memory a i).trans (h.memory a i)
  halt := h'.halt.trans h.halt
  params := h'.params.trans h.params
  devCalls := by rw [h'.devCalls, h.devCalls, List.append_assoc, List.append_nil]
  draws := by rw [h'.draws, h.draws]

theorem WritesRegister.effAddr_eq {s t : State} {rt rs : Reg} {v : Word} (h : WritesRegister rt v s t) (hne : rs ≠ rt)
    (imm : BitVec 16) : effAddr t rs imm = effAddr s rs imm := by
  rw [effAddr, h.regs rs, if_neg fun hrs => hne hrs.1, effAddr]

theorem WritesRegister.reg_self {s t : State} {rt : Reg} {v : Word} (h : WritesRegister rt v s t) (hrt : rt ≠ 0) :
    t.reg rt = v := by
  rw [h.regs rt, if_pos ⟨rfl, hrt⟩]

theorem toNat_add_three_mod (ea : Word) : (ea + 3).toNat % 4 = (ea.toNat % 4 + 3) % 4 := by
  have hthree : (ea + 3).toNat = (ea.toNat + 3) % 2 ^ 32 := BitVec.toNat_add _ _
  omega

/-- An aligned `ea` shares its word with `ea + 3`. -/
theorem alignedAddr_add_three {ea : Word} (h : ea.toNat % 4 = 0) : alignedAddr (ea + 3) = alignedAddr ea := by
  have hthree : (ea + 3).toNat = (ea.toNat + 3) % 2 ^ 32 := BitVec.toNat_add _ _
  apply BitVec.eq_of_toNat_eq
  rw [alignedAddr_toNat, alignedAddr_toNat]
  omega

/-- Byte `j` of the four from `ea` up: the first `4 - ea % 4` lie in the word of `ea`, in array `A`, and the others in the
word of `ea + 3`, in array `B`. -/
def straddlingByte (s : State) (A B : ArrayId) (ea : Word) (j : Nat) : Byte :=
  if ea.toNat % 4 + j < 4 then s.cell A (localIndex A (alignedAddr ea) + (ea.toNat % 4 + j))
  else s.cell B (localIndex B (alignedAddr (ea + 3)) + (ea.toNat % 4 + j - 4))

section
variable {rt rs : Reg} {lo hi : BitVec 16} {s : State} {A B : ArrayId} (hrt : rt ≠ 0) (hrs : rs ≠ rt)
  (hhi : effAddr s rs hi = effAddr s rs lo + 3)
  (hA : classify s.params.regions (alignedAddr (effAddr s rs lo)) = some (.array A))
  (hB : classify s.params.regions (alignedAddr (effAddr s rs hi)) = some (.array B))
include hrt hrs hhi hA hB

theorem lwr_then_lwl : ∃ v, (∀ j, j < 4 → byteOf v j = straddlingByte s A B (effAddr s rs lo) j) ∧
    ∃ t u, exec (.lwr rt rs lo) s = .next t ∧ exec (.lwl rt rs hi) t = .next u ∧ WritesRegister rt v s u := by
  obtain ⟨-, t, v₁, hlwr, ht, hv₁⟩ := unalignedLoadMerges rt rs lo s A _ _ hA rfl rfl
  have hea := ht.effAddr_eq hrs hi
  obtain ⟨⟨u, v, hlwl, hu, hv⟩, -⟩ :=
    unalignedLoadMerges rt rs hi t B _ _ (by rw [ht.params, hea]; exact hB) rfl rfl
  refine ⟨v, fun j hj => ?_, t, u, hlwr, hlwl, ht.trans hu⟩
  rw [hv j hj, ht.reg_self hrt, hv₁ j hj, hea, hhi, ht.memory, straddlingByte, toNat_add_three_mod]
  by_cases haligned : (effAddr s rs lo).toNat % 4 = 0
  · have hword := alignedAddr_add_three haligned
    obtain rfl : A = B := by
      rw [hhi, hword, hA] at hB
      cases hB
      rfl
    rw [if_pos (by omega), if_pos (by omega), hword]
    congr 2; omega
  · by_cases hfirst : (effAddr s rs lo).toNat % 4 + j < 4
    · rw [if_neg (by omega), if_pos (by omega), if_pos hfirst, Nat.add_comm j]
    · rw [if_pos (by omega), if_neg hfirst]
      congr 2; omega

theorem lwl_then_lwr : ∃ v, (∀ j, j < 4 → byteOf v j = straddlingByte s A B (effAddr s rs lo) j) ∧
    ∃ t u, exec (.lwl rt rs hi) s = .next t ∧ exec (.lwr rt rs lo) t = .next u ∧ WritesRegister rt v s u := by
  obtain ⟨⟨t, v₁, hlwl, ht, hv₁⟩, -⟩ := unalignedLoadMerges rt rs hi s B _ _ hB rfl rfl
  have hea := ht.effAddr_eq hrs lo
  obtain ⟨-, u, v, hlwr, hu, hv⟩ := unalignedLoadMerges rt rs lo t A _ _ (by rw [ht.params, hea]; exact hA) rfl rfl
  refine ⟨v, fun j hj => ?_, t, u, hlwl, hlwr, ht.trans hu⟩
  rw [hv j hj, ht.reg_self hrt, hv₁ j hj, hea, hhi, ht.memory, straddlingByte, toNat_add_three_mod]
  by_cases hfirst : (effAddr s rs lo).toNat % 4 + j < 4
  · rw [if_pos (by omega), if_pos hfirst, Nat.add_comm j]
  · rw [if_neg (by omega), if_pos (by omega), if_neg hfirst]
    congr 2; omega

end

/-- Settles O54: in either order the second instruction completes the word that the first began, so the two words agree
byte by byte. -/
theorem unalignedLoadPair : Obligations.UnalignedLoadPair := by
  unfold Obligations.UnalignedLoadPair
  intro rt rs lo hi s A B hrt hrs hhi hA hB
  obtain ⟨v, hv, hright⟩ := lwr_then_lwl hrt hrs hhi hA hB
  obtain ⟨v', hv', hleft⟩ := lwl_then_lwr hrt hrs hhi hA hB
  obtain rfl : v = v' := eq_of_byteOf_eq fun j hj => (hv j hj).trans (hv' j hj).symm
  refine ⟨v, fun j hj => ?_, hright, hleft⟩
  rw [hv j hj, hhi]
  rfl

end Sys2Proof.Machine
end

section
/-! Stores (47_load_store.md R196, R197, R200 to R203), and the accesses that reach no region. -/

namespace Sys2Proof.Machine

/-! ## Stores that are discarded (R60, R64, D18) -/

/-- A store routed to array `a` has no effect: ROM always, RAM while the cache is isolated. -/
def DiscardsStores (s : State) (a : ArrayId) : Prop := a = .rom ∨ (a = .ram ∧ s.cacheIsolated = true)

theorem memWrite_of_discardsStores {s : State} {addr : Word} {n : Width} {a : ArrayId} (v : Word)
    (hdiscards : DiscardsStores s a) (h : Reaches s addr n a) : memWrite addr n v s = s := by
  obtain rfl | ⟨rfl, hisolated⟩ := hdiscards
  · exact memWrite_array h.1 h.2
  · exact memWrite_of_isolated v hisolated h

theorem unchanged_refl (s : State) : Unchanged s s where
  regs _ := rfl
  pcs := ⟨rfl, rfl, rfl⟩
  hiLo := ⟨rfl, rfl⟩
  cp0 _ := rfl
  memory _ _ := rfl
  outside := ⟨rfl, rfl, rfl, rfl⟩

/-- From an array `swl` and `swr` store the merged word of what the array holds. -/
theorem finishMerge_of_reaches {s : State} {al : Word} {a : ArrayId} (merge : Word → Word) (h : Reaches s al .word a) :
    finishMerge al merge (memRead .load al .word s) =
      memWrite al .word (merge (readLE (s.array a) (localIndex a al) .word)) s := by
  rw [memRead_array h.1 h.2, finishMerge]

/-- Settles O52: the five instructions write, and a write that is discarded leaves the state itself. -/
theorem discardedStores : Obligations.DiscardedStores := by
  unfold Obligations.DiscardedStores
  intro rt rs imm s a hdiscards
  have unchanged {addr : Word} {n : Width} (v : Word) (h : Reaches s addr n a) : Unchanged s (memWrite addr n v s) := by
    rw [memWrite_of_discardsStores v hdiscards h]
    exact unchanged_refl s
  refine ⟨fun h => ⟨_, rfl, unchanged _ h⟩, fun h => ⟨_, rfl, unchanged _ h⟩, fun h => ⟨_, rfl, unchanged _ h⟩,
    fun h => ⟨⟨_, rfl, ?swl⟩, ⟨_, rfl, ?swr⟩⟩⟩
  all_goals
    rw [finishMerge_of_reaches _ h]
    exact unchanged _ h

/-! ## Stores to an array -/

theorem memWrite_enters_adES {s : State} {addr : Word} {n : Width} (v : Word) (h : addr.toNat % widthBytes n ≠ 0) :
    EntersException 5 s (memWrite addr n v s) ∧ SameRegs s (memWrite addr n v s) := by
  rw [memWrite_misaligned (Bool.not_eq_true _ ▸ mt (aligned_iff addr n).1 h)]
  exact ⟨entersException_raiseExc .adES s, sameRegs_raiseExc .adES s⟩

/-- Settles O51: each is one write of its width, with the effect of a store that reaches an array or with the trap. -/
theorem alignedStoresOrTrap : Obligations.AlignedStoresOrTrap := by
  unfold Obligations.AlignedStoresOrTrap
  intro rt rs imm s
  refine ⟨fun a hwf htakes => ⟨fun h => ?sb, fun h => ?sh, fun h => ?sw⟩, fun h => ?shTrap, fun h => ?swTrap⟩
  case sb | sh | sw => exact ⟨_, rfl, storesBytes_memWrite _ hwf htakes h⟩
  case shTrap => exact ⟨_, rfl, memWrite_enters_adES (n := .half) _ h⟩
  case swTrap => exact ⟨_, rfl, memWrite_enters_adES (n := .word) _ h⟩

/-- The bytes that a store writes back as they were need not be named. -/
theorem StoresBytes.narrow {s t : State} {a : ArrayId} {i n i' n' : Nat} {b b' : Nat → Byte}
    (h : StoresBytes a i n b s t) (hlo : i ≤ i') (hhi : i' + n' ≤ i + n)
    (hb : ∀ j, j < n → b j = if i' ≤ i + j ∧ i + j < i' + n' then b' (i + j - i') else s.cell a (i + j)) :
    StoresBytes a i' n' b' s t where
  cells c j := by
    rw [h.cells]
    by_cases hin : c = a ∧ i ≤ j ∧ j < i + n
    · obtain ⟨rfl, hij, hjn⟩ := hin
      rw [if_pos ⟨rfl, hij, hjn⟩, hb (j - i) (by omega), show i + (j - i) = j by omega]
      simp
    · rw [if_neg hin, if_neg fun hin' => hin ⟨hin'.1, by omega, by omega⟩]
  regs := h.regs
  pcs := h.pcs
  hiLo := h.hiLo
  cp0 := h.cp0
  outside := h.outside

/-- Settles O53: the merged word gives the bytes that are not stored back as they were. -/
theorem unalignedStoreMerges : Obligations.UnalignedStoreMerges := by
  unfold Obligations.UnalignedStoreMerges
  rintro rt rs imm s a i k hwf htakes harray rfl rfl
  have hreach : Reaches s (alignedAddr (effAddr s rs imm)) .word a := ⟨aligned_alignedAddr _, harray⟩
  have hbyte (j : Nat) (hj : j < 4) :
      byteOf (readLE (s.array a) (localIndex a (alignedAddr (effAddr s rs imm))) .word) j =
        s.cell a (localIndex a (alignedAddr (effAddr s rs imm)) + j) :=
    (byteOf_readLE _ _ .word hj).trans (if_pos hj)
  refine ⟨⟨_, rfl, ?swl⟩, ⟨_, rfl, ?swr⟩⟩
  case swl =>
    rw [finishMerge_of_reaches _ hreach]
    refine (storesBytes_memWrite _ hwf htakes hreach).narrow (Nat.le_refl _) (by simp only [widthBytes]; omega) fun j hj => ?_
    rw [byteOf_mergeSwl _ _ _ hj, toNat_lowBits, hbyte j hj, Nat.add_sub_cancel_left]
    exact ite_congr (propext (by omega)) (fun _ => rfl) fun _ => rfl
  case swr =>
    rw [finishMerge_of_reaches _ hreach]
    refine (storesBytes_memWrite _ hwf htakes hreach).narrow (by omega) (by simp only [widthBytes]; omega) fun j hj => ?_
    have hj4 : j < 4 := hj
    rw [byteOf_mergeSwr _ _ _ hj, toNat_lowBits, hbyte j hj, Nat.add_sub_add_left]
    exact ite_congr (propext (by omega)) (fun _ => rfl) fun _ => rfl

/-! ## The pair `swr`, `swl` -/

theorem StoresBytes.takesStores {s t : State} {a c : ArrayId} {i n : Nat} {b : Nat → Byte}
    (h : StoresBytes a i n b s t) (htakes : TakesStores s c) : TakesStores t c := by
  refine htakes.imp_right fun ⟨hram, hisolated⟩ => ⟨hram, ?_⟩
  rw [State.cacheIsolated, State.sr, h.cp0, h.outside.2.1]
  exact hisolated

theorem StoresBytes.effAddr_eq {s t : State} {a : ArrayId} {i n : Nat} {b : Nat → Byte}
    (h : StoresBytes a i n b s t) (rs : Reg) (imm : BitVec 16) : effAddr t rs imm = effAddr s rs imm := by
  rw [effAddr, h.regs, effAddr]

theorem SameOutside.trans {s t u : State} (h : SameOutside s t) (h' : SameOutside t u) : SameOutside s u := by
  obtain ⟨hhalt, hparams, hcalls, hdraws⟩ := h
  obtain ⟨hhalt', hparams', hcalls', hdraws'⟩ := h'
  exact ⟨hhalt'.trans hhalt, hparams'.trans hparams, hcalls'.trans hcalls, hdraws'.trans hdraws⟩

/-- A misaligned `ea` and `ea + 3` lie in different words, also where the second wraps to the start of the array. -/
theorem localIndex_add_three_apart (a : ArrayId) {ea : Word} (h : ea.toNat % 4 ≠ 0) :
    localIndex a (alignedAddr ea) + 4 ≤ localIndex a (alignedAddr (ea + 3)) ∨
      localIndex a (alignedAddr (ea + 3)) + 4 ≤ localIndex a (alignedAddr ea) := by
  have hthree : (ea + 3).toNat = (ea.toNat + 3) % 2 ^ 32 := BitVec.toNat_add _ _
  cases a <;> simp only [localIndex, arraySize, alignedAddr_toNat] <;> omega

/-- Byte `j` of array `c` after the stores of O55, which was `old` before: `swr` stores at `k` in the word at `iA` of array
`A`, then `swl` up to `k - 1` in the word at `iB` of array `B`. For `k = 0` both store the same word at the same place, and
otherwise they do not overlap. -/
theorem straddling_store {A B : ArrayId} {iA iB k : Nat} (c : ArrayId) (b : Nat → Byte) (old : Byte) (j : Nat)
    (hk : k < 4) (hsame : k = 0 → A = B ∧ iA = iB) (hapart : k ≠ 0 → A = B → iA + 4 ≤ iB ∨ iB + 4 ≤ iA) :
    (if c = B ∧ iB ≤ j ∧ j < iB + ((k + 3) % 4 + 1) then b (3 - (k + 3) % 4 + (j - iB))
      else if c = A ∧ iA + k ≤ j ∧ j < iA + k + (4 - k) then b (j - (iA + k)) else old) =
    if c = A ∧ iA + k ≤ j ∧ j < iA + 4 then b (j - (iA + k))
      else if c = B ∧ k ≠ 0 ∧ iB ≤ j ∧ j < iB + k then b (4 - k + (j - iB)) else old := by
  rw [show iA + k + (4 - k) = iA + 4 by omega]
  rcases Nat.eq_zero_or_pos k with rfl | hpos
  · obtain ⟨rfl, rfl⟩ := hsame rfl
    by_cases hin : c = A ∧ iA ≤ j ∧ j < iA + 4 <;> simp [hin]
  · rw [show (k + 3) % 4 + 1 = k by omega, show 3 - (k + 3) % 4 = 4 - k by omega]
    by_cases hB : c = B ∧ iB ≤ j ∧ j < iB + k
    · have hA : ¬ (c = A ∧ iA + k ≤ j ∧ j < iA + 4) := by
        rintro ⟨rfl, hA⟩
        have := hapart (Nat.ne_of_gt hpos) hB.1
        omega
      rw [if_pos hB, if_neg hA, if_pos ⟨hB.1, (Nat.ne_of_gt hpos), hB.2⟩]
    · have hB' : ¬ (c = B ∧ k ≠ 0 ∧ iB ≤ j ∧ j < iB + k) := fun h => hB ⟨h.1, h.2.2⟩
      rw [if_neg hB, if_neg hB']

/-- Settles O55: each instruction is a store of O53, the second in the state that the first leaves. -/
theorem unalignedStorePair : Obligations.UnalignedStorePair := by
  unfold Obligations.UnalignedStorePair
  intro rt rs lo hi s A B hwf hA hB hhi hclassA hclassB
  obtain ⟨-, t, hswr, ht⟩ := unalignedStoreMerges rt rs lo s A _ _ hwf hA hclassA rfl rfl
  have hea := ht.effAddr_eq rs hi
  obtain ⟨⟨u, hswl, hu⟩, -⟩ := unalignedStoreMerges rt rs hi t B _ _ ((keeps_of_exec hswr).arraysWf hwf)
    (ht.takesStores hB) (by rw [ht.outside.2.1, hea]; exact hclassB) rfl rfl
  refine ⟨t, u, hswr, hswl, fun q => (hu.regs q).trans (ht.regs q), ht.pcs.trans hu.pcs,
    ⟨hu.hiLo.1.trans ht.hiLo.1, hu.hiLo.2.trans ht.hiLo.2⟩, fun k => (hu.cp0 k).trans (ht.cp0 k),
    ht.outside.trans hu.outside, fun c j => ?cells⟩
  case cells =>
    rw [hu.cells, ht.cells, hea, ht.regs, hhi, toNat_add_three_mod]
    refine straddling_store c _ _ j (Nat.mod_lt _ (by decide)) (fun haligned => ?same) (fun hmisaligned => ?apart)
    case same =>
      have hword := alignedAddr_add_three haligned
      rw [hhi, hword, hclassA] at hclassB
      cases hclassB
      exact ⟨rfl, by rw [hword]⟩
    case apart =>
      rintro rfl
      exact localIndex_add_three_apart A hmisaligned

/-! ## The fetch after a store -/

/-- Settles O57: the fetch reads the array at the index where the word was just written. -/
theorem storeSeenByNextFetch : Obligations.StoreSeenByNextFetch := by
  unfold Obligations.StoreSeenByNextFetch
  intro rt rs imm s t a hwf htakes hreach hpc hindex hexec
  have ht : t = s.setArray a (writeLE (s.array a) (localIndex a (effAddr s rs imm)) .word (s.reg rt)) := by
    rw [← arrayStore_of_takesStores _ _ _ htakes, ← memWrite_array hreach.1 hreach.2]
    exact (Host.Outcome.next.inj hexec).symm
  have hfetch : fetch t = .word (readLE (t.array a) (localIndex a t.pc) .word) t :=
    fetch_array (by rw [ht, setArray_pc]; exact hpc.1) (by rw [ht, setArray_pc, setArray_params]; exact hpc.2)
  rw [hfetch, ht, array_setArray, if_pos rfl, setArray_pc, hindex,
    readLE_writeLE .word _ (wf_array hwf a) (localIndex_bound a hreach.1), truncTo]

/-! ## Stores to a device window (R62, D24, D29) -/

theorem truncTo_eq_ofNat (n : Width) (v : Word) : truncTo n v = BitVec.ofNat 32 (v.toNat % 2 ^ (8 * widthBytes n)) := by
  rw [← toNat_truncTo, BitVec.ofNat_toNat, BitVec.setWidth_eq]

theorem loadsRegister_memWrite_dev {s : State} {addr : Word} {n : Width} {d : Dev} (v : Word)
    (haligned : aligned addr n = true) (hdev : classify s.params.regions addr = some (.dev d)) :
    LoadsRegister 0 0 [.store d n addr (truncTo n v)] 0 s (memWrite addr n v s) := by
  rw [memWrite_dev haligned hdev]
  exact loadsRegister_logDevCall s _

/-- In a device window `swl` and `swr` are one read and one write of the merged word. -/
theorem loadsRegister_finishMerge_dev {s : State} {al : Word} {d : Dev} {a : Word} {k : Nat} (merge : Word → Word)
    (haligned : aligned al .word = true) (hdev : classify s.params.regions al = some (.dev d))
    (h : DevAnswers s d .word al a k) :
    LoadsRegister 0 0 [.load d .word al, .store d .word al (merge a)] k s
      (finishMerge al merge (memRead .load al .word s)) := by
  obtain ⟨u, hread, hu⟩ := readAnswers_of_dev haligned hdev h
  rw [hread]
  exact hu.trans (loadsRegister_memWrite_dev (merge a) haligned (by rw [hu.params]; exact hdev))

/-- Settles O49: each write is one device call, which for `swl` and `swr` follows the call of the read. -/
theorem peripheralStores : Obligations.PeripheralStores := by
  unfold Obligations.PeripheralStores
  rintro rt rs imm s d ea al rfl rfl
  refine ⟨fun hdev => ⟨⟨_, rfl, ?sb⟩, fun haligned => ⟨_, rfl, ?sh⟩, fun haligned => ⟨_, rfl, ?sw⟩⟩,
    fun hdev a k ha => ?merges⟩
  case sb =>
    have hstore := loadsRegister_memWrite_dev (s.reg rt) (aligned_byte _) hdev
    rwa [truncTo_eq_ofNat] at hstore
  case sh =>
    have hstore := loadsRegister_memWrite_dev (s.reg rt) ((aligned_iff _ .half).2 haligned) hdev
    rwa [truncTo_eq_ofNat] at hstore
  case sw => exact loadsRegister_memWrite_dev (s.reg rt) ((aligned_iff _ .word).2 haligned) hdev
  case merges =>
    have hmerge (merge : Word → Word) := loadsRegister_finishMerge_dev merge (aligned_alignedAddr _) hdev ha
    refine ⟨⟨_, _, rfl, hmerge _, fun j hj => ?swl⟩, ⟨_, _, rfl, hmerge _, fun j hj => ?swr⟩⟩
    case swl => rw [byteOf_mergeSwl _ _ _ hj, toNat_lowBits]
    case swr => rw [byteOf_mergeSwr _ _ _ hj, toNat_lowBits]

/-! ## Accesses in no region (R63, D7) -/

/-- Settles O47: the first access of each of the twelve sets the latch, and the rest of the instruction does nothing. -/
theorem unmappedAccessHalts : Obligations.UnmappedAccessHalts := by
  unfold Obligations.UnmappedAccessHalts
  intro i s addr n kind haccess haligned hunmapped
  cases i with
  | lb | lbu | lh | lhu | lw | lwl | lwr | swl | swr =>
    cases haccess
    refine ⟨_, rfl, ?_⟩
    rw [memRead_unmapped haligned hunmapped]
    exact halts_setHalted s _
  | sb | sh | sw =>
    cases haccess
    refine ⟨_, rfl, ?_⟩
    rw [memWrite_unmapped haligned hunmapped]
    exact halts_setHalted s _
  | _ => cases haccess

end Sys2Proof.Machine
end

section
/-! Multiply and divide (43_muldiv.md R140 to R145), `addiu` (42_arith.md R134), and the link branches and `jalr` in the
forms that name their link register (45_branch.md R176, R177; 46_jump.md R183). -/

namespace Sys2Proof.Machine

/-! ## Multiply and divide -/

theorem writesHiLo_setHiLo (s : State) (h l : Word) : WritesHiLo h l s (s.setHiLo h l) where
  hi := rfl
  lo := rfl
  regs := reg_congr rfl
  pcs := ⟨rfl, rfl, rfl⟩
  cp0 := cp0Word_congr rfl
  memory a i := congrArg (Memory.read · i) (array_congr rfl rfl rfl a)
  outside := ⟨rfl, rfl, rfl, rfl⟩

/-- hi and lo together are the product that was written. -/
theorem hi_append_lo (p : BitVec 64) : p.extractLsb' 32 32 ++ p.extractLsb' 0 32 = p :=
  BitVec.extractLsb'_append_extractLsb'

/-- The product of two signed words fits 64 bits. -/
theorem toInt_signedProduct (x y : Word) : (BitVec.ofInt 64 (x.toInt * y.toInt)).toInt = x.toInt * y.toInt := by
  have hle : x.toInt * y.toInt ≤ 2 ^ 62 := BitVec.toInt_mul_toInt_le
  have hge : -2 ^ 62 ≤ x.toInt * y.toInt := BitVec.le_toInt_mul_toInt
  rw [BitVec.toInt_ofInt]
  exact Int.bmod_eq_of_le (by omega) (by omega)

theorem toNat_unsignedProduct (x y : Word) : (BitVec.ofNat 64 (x.toNat * y.toNat)).toNat = x.toNat * y.toNat :=
  (BitVec.toNat_ofNat _ _).trans (Nat.mod_eq_of_lt BitVec.toNat_mul_toNat_lt)

/-- Settles O30: hi and lo are the two halves of a 64-bit product, which is exact. -/
theorem multiplyProducts : Obligations.MultiplyProducts := by
  unfold Obligations.MultiplyProducts
  intro rs rt s
  refine ⟨⟨_, _, _, rfl, writesHiLo_setHiLo s _ _, ?mult⟩, ⟨_, _, _, rfl, writesHiLo_setHiLo s _ _, ?multu⟩⟩
  case mult => rw [hi_append_lo, toInt_signedProduct]
  case multu => rw [hi_append_lo, toNat_unsignedProduct]

/-- What is left of `n` after the quotient toward zero is the remainder toward zero: smaller than the divisor, and of the
sign of `n` or 0. -/
theorem tdiv_remainder (n : Int) {d : Int} (hd : d ≠ 0) :
    (n - n.tdiv d * d).natAbs < d.natAbs ∧
      (n - n.tdiv d * d = 0 ∨ (0 < n - n.tdiv d * d ∧ 0 < n) ∨ (n - n.tdiv d * d < 0 ∧ n < 0)) := by
  have htmod : n - n.tdiv d * d = n.tmod d := by rw [Int.tmod_def, Int.mul_comm]
  rw [htmod]
  refine ⟨?lt, ?sign⟩
  case lt =>
    rw [Int.natAbs_tmod]
    exact Nat.mod_lt _ (Int.natAbs_pos.2 hd)
  case sign =>
    have hpos : 0 ≤ n → 0 ≤ n.tmod d := Int.tmod_nonneg d
    have hneg : 0 ≤ -n → 0 ≤ -n.tmod d := fun h => Int.neg_tmod n d ▸ Int.tmod_nonneg d h
    omega

theorem toInt_ne_zero {x : Word} (h : x ≠ 0) : x.toInt ≠ 0 :=
  fun hzero => h (BitVec.toInt_inj.1 (hzero.trans BitVec.toInt_zero.symm))

theorem toNat_pos_of_ne_zero {x : Word} (h : x ≠ 0) : 0 < x.toNat :=
  Nat.pos_of_ne_zero fun hzero => h (BitVec.eq_of_toNat_eq hzero)

section
variable {rs rt : Reg} {s : State}

theorem exec_div_of_zero (h : s.reg rt = 0) : exec (.div rs rt) s = .next (s.setHiLo (s.reg rs) 0xFFFFFFFF) :=
  congrArg Host.Outcome.next (if_pos h)

theorem exec_div_of_ne_zero (h : s.reg rt ≠ 0) : exec (.div rs rt) s =
    .next (s.setHiLo
      (BitVec.ofInt 32 ((s.reg rs).toInt - (s.reg rs).toInt.tdiv (s.reg rt).toInt * (s.reg rt).toInt))
      (BitVec.ofInt 32 ((s.reg rs).toInt.tdiv (s.reg rt).toInt))) :=
  congrArg Host.Outcome.next (if_neg h)

theorem exec_divu_of_zero (h : s.reg rt = 0) : exec (.divu rs rt) s = .next (s.setHiLo (s.reg rs) 0xFFFFFFFF) :=
  congrArg Host.Outcome.next (if_pos h)

theorem exec_divu_of_ne_zero (h : s.reg rt ≠ 0) : exec (.divu rs rt) s =
    .next (s.setHiLo (BitVec.ofNat 32 ((s.reg rs).toNat % (s.reg rt).toNat))
      (BitVec.ofNat 32 ((s.reg rs).toNat / (s.reg rt).toNat))) :=
  congrArg Host.Outcome.next (if_neg h)

end

/-- Settles O31: the quotient toward zero and what it leaves of the dividend. -/
theorem signedDivision : Obligations.SignedDivision := by
  unfold Obligations.SignedDivision
  intro rs rt s
  refine ⟨fun hzero => ⟨_, exec_div_of_zero hzero, writesHiLo_setHiLo s _ _⟩, fun hne => ?_⟩
  exact ⟨_, _, _, exec_div_of_ne_zero hne, writesHiLo_setHiLo s _ _, (Int.sub_add_cancel _ _).symm.trans (Int.add_comm _ _),
    tdiv_remainder _ (toInt_ne_zero hne)⟩

/-- Settles O32: quotient and remainder are not above the dividend, so both fit a word. -/
theorem unsignedDivision : Obligations.UnsignedDivision := by
  unfold Obligations.UnsignedDivision
  intro rs rt s
  refine ⟨fun hzero => ⟨_, exec_divu_of_zero hzero, writesHiLo_setHiLo s _ _⟩, fun hne => ?_⟩
  have hquotient := Nat.div_le_self (s.reg rs).toNat (s.reg rt).toNat
  have hremainder := Nat.mod_le (s.reg rs).toNat (s.reg rt).toNat
  refine ⟨_, _, _, exec_divu_of_ne_zero hne, writesHiLo_setHiLo s _ _, ?sum, ?below⟩
  case sum =>
    rw [BitVec.toNat_ofNat, BitVec.toNat_ofNat, Nat.mod_eq_of_lt (by omega), Nat.mod_eq_of_lt (by omega)]
    exact Nat.div_add_mod' _ _
  case below =>
    rw [BitVec.toNat_ofNat, Nat.mod_eq_of_lt (by omega)]
    exact Nat.mod_lt _ (toNat_pos_of_ne_zero hne)

/-- Settles O33: each is one register write. -/
theorem movesFromHiLo : Obligations.MovesFromHiLo := by
  unfold Obligations.MovesFromHiLo
  exact fun rd s => ⟨⟨_, rfl, writesRegister_setReg s rd _⟩, ⟨_, rfl, writesRegister_setReg s rd _⟩⟩

/-! ## The non-trapping addition of an immediate -/

/-- Settles O28: one register write, of the sum modulo 2^32 with the sign-extended immediate. -/
theorem addImmediateWraps : Obligations.AddImmediateWraps := by
  unfold Obligations.AddImmediateWraps
  intro rt rs imm s
  refine ⟨_, _, rfl, writesRegister_setReg s rt _, ?_⟩
  have himm := toNat_sext16_eq_emod imm
  rw [BitVec.toNat_add]
  omega

/-! ## The forms that name their link register (U3, U4) -/

/-- Settles O42: the link write, then the write of `next_pc` with the register as it was before. -/
theorem jalrLinksAndJumps : Obligations.JalrLinksAndJumps := by
  unfold Obligations.JalrLinksAndJumps
  intro rd rs s hforms
  refine ⟨_, rfl, ?_⟩
  rw [if_neg fun ⟨heq, hne⟩ => hforms.elim (· heq) hne]
  exact transfers_setNextPc _ (writesRegister_setReg s rd _)

theorem sampledTarget_eq (r : Reg) (s : State) : sampledTarget r s = s.reg r ∨ sampledTarget r s = s.pc + 4 := by
  rw [sampledTarget]
  split
  · exact .inr rfl
  · exact .inl rfl

theorem sampledLink_eq (s : State) : sampledLink s = s.reg 31 ∨ sampledLink s = s.pc + 4 := by
  rw [sampledLink]
  split
  · exact .inr rfl
  · exact .inl rfl

/-- Settles O43: the link write, a draw, and the write of `next_pc` with the sampled target. -/
theorem jalrThroughItsLink : Obligations.JalrThroughItsLink := by
  unfold Obligations.JalrThroughItsLink
  intro r s hr
  refine ⟨_, sampledTarget r s, sampledTarget_eq r s, rfl, ?_⟩
  rw [if_pos ⟨rfl, hr⟩]
  exact transfers_setNextPc _ (writesRegister_setReg s r _).countDraw

/-- Settles O40: the link write, a draw, and the branch on the sampled value. -/
theorem linkBranchesOnLinkRegister : Obligations.LinkBranchesOnLinkRegister := by
  unfold Obligations.LinkBranchesOnLinkRegister
  intro imm s
  have hlink := (writesRegister_writeLink s).countDraw
  exact ⟨⟨_, _, sampledLink_eq s, rfl, branches_branchIf imm (isNegative_iff _) hlink⟩,
    ⟨_, _, sampledLink_eq s, rfl, branches_branchIf imm (not_isNegative_iff _) hlink⟩⟩

end Sys2Proof.Machine
end

section
/-! What each instruction can do to coprocessor 0, hi and lo, and the halt latch, said once; what follows for every step
(10_state.md R25 to R27, 60_exceptions.md R220, R242); and the entry and return of an exception over two steps. -/

namespace Sys2Proof.Machine

/-- Coprocessor 0, hi and lo, and the halt latch are as before. -/
structure KeepsSystem (s t : State) : Prop where
  cp0 : SameCp0 s t
  hiLo : SameHiLo s t
  halt : t.halt = s.halt

/-- What instruction `i` can make of `s`, as far as coprocessor 0, hi and lo, and the halt latch go. -/
inductive Effect (i : Instr) (s : State) : State → Prop
  /-- Registers, `next_pc`, memory and the model's own records at most. -/
  | ordinary {t : State} (h : KeepsSystem s t) : Effect i s t
  | multipliesOrDivides {rs rt : Reg} (hi lo : Word)
      (h : i = .mult rs rt ∨ i = .multu rs rt ∨ i = .div rs rt ∨ i = .divu rs rt) : Effect i s (s.setHiLo hi lo)
  /-- The exception entry, after which a load still writes its register. -/
  | raises (c : ExcCode) (r : Reg) (v : Word) (h : mayRaise i = true) : Effect i s ((raiseExc c s).setReg r v)
  | movesToCp0 {rt rd : Reg} (h : i = .mtc0 rt rd) : Effect i s (s.setCp0Word rd (s.reg rt))
  | returns (h : i = .rfe) : Effect i s (restoreModes s)
  | halts (r : HaltReason) : Effect i s (s.setHalted r)

theorem LoadsRegister.keepsSystem {s t : State} {rd : Reg} {v : Word} {calls : List DevCall} {k : Nat}
    (h : LoadsRegister rd v calls k s t) : KeepsSystem s t := ⟨h.cp0, h.hiLo, h.halt⟩

theorem Transfers.keepsSystem {s t : State} {target link : Word} {rd : Reg} {k : Nat}
    (h : Transfers target rd link k s t) : KeepsSystem s t := ⟨h.cp0, h.hiLo, h.halt⟩

/-- A branch is a transfer to one of two targets. -/
theorem Branches.keepsSystem {s t : State} {cond : Prop} {imm : BitVec 16} {link : Word} {rd : Reg} {k : Nat}
    (h : Branches cond imm rd link k s t) : KeepsSystem s t := by
  obtain ⟨_, -, htaken, hnot⟩ := h
  by_cases hcond : cond
  · exact (htaken hcond).keepsSystem
  · exact (hnot hcond).keepsSystem

theorem effect_raiseExc {i : Instr} (c : ExcCode) (s : State) (h : mayRaise i = true) : Effect i s (raiseExc c s) :=
  .raises c 0 0 h

section
variable {i : Instr} {addr al : Word} {n : Width} {s : State}

/-- An aligned load halts, or reads from an array or a device and writes its register. -/
theorem effect_finishLoad_aligned (rt : Reg) (extend : Word → Word) (h : aligned addr n = true) :
    Effect i s (finishLoad rt extend (memRead .load addr n s)) := by
  cases hclass : classify s.params.regions addr with
  | none => rw [memRead_unmapped h hclass]; exact .halts _
  | some b =>
    cases b with
    | array a => exact .ordinary ((readAnswers_of_reaches ⟨h, hclass⟩).finishLoad rt extend).keepsSystem
    | dev d =>
      obtain ⟨w, k, hanswers⟩ := exists_devAnswers s d n addr
      exact .ordinary ((readAnswers_of_dev h hclass hanswers).finishLoad rt extend).keepsSystem

theorem effect_finishLoad (rt : Reg) (extend : Word → Word) (hraise : mayRaise i = true) :
    Effect i s (finishLoad rt extend (memRead .load addr n s)) := by
  cases h : aligned addr n with
  | true => exact effect_finishLoad_aligned rt extend h
  | false => rw [memRead_misaligned h]; exact .raises .adEL rt _ hraise

theorem keepsSystem_arrayStore (a : ArrayId) (v : Word) : KeepsSystem s (arrayStore a addr n v s) := by
  obtain h | ⟨-, h⟩ := arrayStore_cases a addr n v s <;> rw [h]
  · exact (writesRegister_zero s).keepsSystem
  · exact ⟨cp0Word_congr (setArray_cp0 s a _), ⟨setArray_hi s a _, setArray_lo s a _⟩, setArray_halt s a _⟩

/-- An aligned store halts, or reaches an array or a device. -/
theorem effect_memWrite_aligned (v : Word) (h : aligned addr n = true) : Effect i s (memWrite addr n v s) := by
  cases hclass : classify s.params.regions addr with
  | none => rw [memWrite_unmapped h hclass]; exact .halts _
  | some b =>
    cases b with
    | array a => rw [memWrite_array h hclass]; exact .ordinary (keepsSystem_arrayStore a v)
    | dev d => exact .ordinary (loadsRegister_memWrite_dev v h hclass).keepsSystem

theorem effect_memWrite (v : Word) (hraise : mayRaise i = true) : Effect i s (memWrite addr n v s) := by
  cases h : aligned addr n with
  | true => exact effect_memWrite_aligned v h
  | false => rw [memWrite_misaligned h]; exact effect_raiseExc .adES s hraise

/-- `swl` and `swr` halt at their read, or reach an array or a device with both accesses. -/
theorem effect_finishMerge (merge : Word → Word) (h : aligned al .word = true) :
    Effect i s (finishMerge al merge (memRead .load al .word s)) := by
  cases hclass : classify s.params.regions al with
  | none => rw [memRead_unmapped h hclass]; exact .halts _
  | some b =>
    cases b with
    | array a => rw [finishMerge_of_reaches merge ⟨h, hclass⟩]; exact effect_memWrite_aligned _ h
    | dev d =>
      obtain ⟨w, k, hanswers⟩ := exists_devAnswers s d .word al
      exact .ordinary (loadsRegister_finishMerge_dev merge h hclass hanswers).keepsSystem

theorem effect_addTrapping (rd : Reg) (x y : Word) (hraise : mayRaise i = true) :
    Effect i s (addTrapping rd x y s) := by
  by_cases h : SumOverflows x y
  · rw [addTrapping_of_sumOverflows rd s h]
    exact effect_raiseExc .ov s hraise
  · rw [addTrapping_of_not_sumOverflows rd s h]
    exact .ordinary (writesRegister_setReg s rd _).keepsSystem

end

theorem keepsSystem_branchIf (cond : Bool) (imm : BitVec 16) (s : State) : KeepsSystem s (branchIf cond imm s) :=
  (branches_branchIf imm Iff.rfl (writesRegister_zero s)).keepsSystem

theorem keepsSystem_branchLinkIf (cond : Word → Bool) (rs : Reg) (imm : BitVec 16) (s : State) :
    KeepsSystem s (branchLinkIf cond rs imm s) := by
  unfold branchLinkIf
  split
  · exact (branches_branchIf imm Iff.rfl (writesRegister_writeLink s).countDraw).keepsSystem
  · exact (branches_branchIf imm Iff.rfl (writesRegister_writeLink s)).keepsSystem

/-- Every instruction answers a next state, by one of the effects. -/
theorem exec_effect (i : Instr) (s : State) : ∃ t, exec i s = .next t ∧ Effect i s t := by
  cases i with
  | sll | srl | sra | sllv | srlv | srav | mfhi | mflo | addu | subu | and | or | xor | nor | slt | sltu | addiu | slti
  | sltiu | andi | ori | xori | lui | mfc0 => exact ⟨_, rfl, .ordinary (writesRegister_setReg s _ _).keepsSystem⟩
  | j | jr => exact ⟨_, rfl, .ordinary (transfers_setNextPc _ (writesRegister_zero s)).keepsSystem⟩
  | jal => exact ⟨_, rfl, .ordinary (transfers_setNextPc _ (writesRegister_writeLink s)).keepsSystem⟩
  | jalr rd rs =>
    refine ⟨_, rfl, .ordinary ?_⟩
    split
    · exact (transfers_setNextPc _ (writesRegister_setReg s rd _).countDraw).keepsSystem
    · exact (transfers_setNextPc _ (writesRegister_setReg s rd _)).keepsSystem
  | beq | bne | blez | bgtz | bltz | bgez => exact ⟨_, rfl, .ordinary (keepsSystem_branchIf _ _ s)⟩
  | bltzal | bgezal => exact ⟨_, rfl, .ordinary (keepsSystem_branchLinkIf _ _ _ s)⟩
  | mult => exact ⟨_, rfl, .multipliesOrDivides _ _ (.inl rfl)⟩
  | multu => exact ⟨_, rfl, .multipliesOrDivides _ _ (.inr (.inl rfl))⟩
  | div => exact ⟨_, rfl, by split <;> exact .multipliesOrDivides _ _ (.inr (.inr (.inl rfl)))⟩
  | divu => exact ⟨_, rfl, by split <;> exact .multipliesOrDivides _ _ (.inr (.inr (.inr rfl)))⟩
  | add | addi => exact ⟨_, rfl, effect_addTrapping _ _ _ rfl⟩
  | syscall => exact ⟨_, rfl, effect_raiseExc .sys s rfl⟩
  | mtc0 => exact ⟨_, rfl, .movesToCp0 rfl⟩
  | rfe => exact ⟨_, rfl, .returns rfl⟩
  | lb | lbu => exact ⟨_, rfl, effect_finishLoad_aligned _ _ (aligned_byte _)⟩
  | lwl | lwr => exact ⟨_, rfl, effect_finishLoad_aligned _ _ (aligned_alignedAddr _)⟩
  | lh | lhu | lw => exact ⟨_, rfl, effect_finishLoad _ _ rfl⟩
  | sb => exact ⟨_, rfl, effect_memWrite_aligned _ (aligned_byte _)⟩
  | sh | sw => exact ⟨_, rfl, effect_memWrite _ rfl⟩
  | swl | swr => exact ⟨_, rfl, effect_finishMerge _ (aligned_alignedAddr _)⟩

theorem effect_of_exec {i : Instr} {s t : State} (h : exec i s = .next t) : Effect i s t := by
  obtain ⟨u, hu, heffect⟩ := exec_effect i s
  obtain rfl := Host.Outcome.next.inj (hu.symm.trans h)
  exact heffect

/-- Settles O24: of the effects that change the bank, each belongs to an instruction that the statement leaves out. -/
theorem onlyListedInstructionsRaise : Obligations.OnlyListedInstructionsRaise := by
  unfold Obligations.OnlyListedInstructionsRaise
  intro i s t hexec hraise hmtc0 hrfe
  cases effect_of_exec hexec with
  | ordinary h => exact h.cp0
  | multipliesOrDivides hi lo h => exact cp0Word_congr rfl
  | raises c r v h => exact absurd (h.symm.trans hraise) (by decide)
  | movesToCp0 h => exact absurd h (hmtc0 _ _)
  | returns h => exact absurd h hrfe
  | halts r => exact cp0Word_congr rfl

/-! ## What follows for a step -/

/-- A step is the effect of the instruction it runs, the address error of its fetch, or a halt, on a state that is `s` but
for the program counters and the model's own records. -/
theorem step_effect {s t : State} (h : step s = .next t) :
    ∃ u, SameButPcs s u ∧
      ((∃ i, s.nextInstr = some i ∧ Effect i u t) ∨ t = raiseExc .adEL u ∨ ∃ r, t = u.setHalted r) := by
  obtain ⟨-, hended | ⟨w, u, why, hfetch, -, rfl⟩ | ⟨w, u, i, hfetch, hdecode, hexec⟩⟩ := step_next h
  · refine ⟨s, (writesRegister_zero s).sameButPcs, .inr ?_⟩
    obtain ⟨-, ht⟩ | ⟨-, ht⟩ := fetch_ended hended
    · exact .inl ht
    · exact .inr ⟨_, ht⟩
  · exact ⟨advance u, (advance_of_fetch_word hfetch).1, .inr (.inr ⟨_, rfl⟩)⟩
  · exact ⟨advance u, (advance_of_fetch_word hfetch).1,
      .inl ⟨i, nextInstr_of_fetch hfetch hdecode, effect_of_exec hexec⟩⟩

/-- Settles O18: no effect but an `mtc0` changes a word other than those of the entry and of `rfe`, 12 to 14. -/
theorem cp0StorageWordsOnlyByMtc0 : Obligations.Cp0StorageWordsOnlyByMtc0 := by
  unfold Obligations.Cp0StorageWordsOnlyByMtc0
  intro s t k hstep h12 h13 h14 hchanged
  obtain ⟨u, hframe, heffect⟩ := step_effect hstep
  rw [← hframe.cp0 k] at hchanged
  obtain ⟨i, hnext, heffect⟩ | rfl | ⟨r, rfl⟩ := heffect
  · cases heffect with
    | ordinary h => exact absurd (h.cp0 k) hchanged
    | multipliesOrDivides hi lo h => exact absurd rfl hchanged
    | raises c r v h => exact absurd ((cp0Word_setReg _ r k v).trans (raiseExc_cp0Word_of_ne c u h12 h13 h14)) hchanged
    | @movesToCp0 rt rd h =>
      rw [cp0Word_setCp0Word] at hchanged ⊢
      by_cases hk : k = rd
      · subst hk h
        exact ⟨rt, hnext, by rw [if_pos rfl, hframe.regs]⟩
      · exact absurd (if_neg hk) hchanged
    | returns h => exact absurd (restoreModes_cp0Word_of_ne u h12) hchanged
    | halts r => exact absurd rfl hchanged
  · exact absurd (raiseExc_cp0Word_of_ne .adEL u h12 h13 h14) hchanged
  · exact absurd rfl hchanged

/-- Settles O19: one effect alone changes hi or lo. -/
theorem hiLoOnlyByMultiplyAndDivide : Obligations.HiLoOnlyByMultiplyAndDivide := by
  unfold Obligations.HiLoOnlyByMultiplyAndDivide
  intro s t hstep hchanged
  obtain ⟨u, hframe, heffect⟩ := step_effect hstep
  have hsame : ¬ SameHiLo u t := fun hut => hchanged ⟨hut.1.trans hframe.hiLo.1, hut.2.trans hframe.hiLo.2⟩
  obtain ⟨i, hnext, heffect⟩ | rfl | ⟨r, rfl⟩ := heffect
  · cases heffect with
    | ordinary h => exact absurd h.hiLo hsame
    | @multipliesOrDivides rs rt hi lo h =>
      refine ⟨rs, rt, ?_⟩
      rw [hnext]
      simpa using h
    | raises c r v h => exact absurd ⟨setReg_hi _ r v, setReg_lo _ r v⟩ hsame
    | movesToCp0 h => exact absurd ⟨rfl, rfl⟩ hsame
    | returns h => exact absurd ⟨rfl, rfl⟩ hsame
    | halts r => exact absurd ⟨rfl, rfl⟩ hsame
  · exact absurd ⟨rfl, rfl⟩ hsame
  · exact absurd ⟨rfl, rfl⟩ hsame

/-- Settles O20: only a halt changes the latch, and it changes nothing else. -/
theorem haltingStepChangesNothingElse : Obligations.HaltingStepChangesNothingElse := by
  unfold Obligations.HaltingStepChangesNothingElse
  intro s t hstep hhalted
  obtain ⟨hrunning, -⟩ := step_next hstep
  obtain ⟨u, hframe, heffect⟩ := step_effect hstep
  have hsets : t.halt ≠ u.halt := by rwa [hframe.halt, hrunning]
  have halting (r : HaltReason) : SameRegs s (u.setHalted r) ∧ SameHiLo s (u.setHalted r) ∧ SameCp0 s (u.setHalted r) ∧
      SameMemory s (u.setHalted r) := ⟨hframe.regs, hframe.hiLo, hframe.cp0, hframe.memory⟩
  obtain ⟨i, hnext, heffect⟩ | rfl | ⟨r, rfl⟩ := heffect
  · cases heffect with
    | ordinary h => exact absurd h.halt hsets
    | multipliesOrDivides hi lo h => exact absurd rfl hsets
    | raises c r v h => exact absurd (setReg_halt _ r v) hsets
    | movesToCp0 h => exact absurd rfl hsets
    | returns h => exact absurd rfl hsets
    | halts r => exact halting r
  · exact absurd rfl hsets
  · exact halting r

/-! ## Exception entry and return over two steps -/

/-- Settles O22: the pop undoes the push, bit by bit, but for the old pair. -/
theorem entryThenRfeRestoresModes : Obligations.EntryThenRfeRestoresModes := by
  unfold Obligations.EntryThenRfeRestoresModes
  intro c s
  refine ⟨_, rfl, fun k hk => ?_⟩
  rw [restoreModes_sr, raiseExc_sr, popModes_bit _ k hk]
  by_cases h6 : 6 ≤ k
  · rw [if_pos h6, if_neg (by omega), pushModes_bit _ k hk, if_pos h6]
  · by_cases h4 : 4 ≤ k
    · rw [if_neg h6, if_pos h4, if_pos (by omega)]
    · rw [if_neg h6, if_neg h4, if_neg (by omega), pushModes_bit _ (k + 2) (by omega), if_neg (by omega),
        if_pos (by omega), Nat.add_sub_cancel]

/-- The step that runs `i` runs it on `s` with the program counters advanced. -/
theorem step_of_nextInstr {s : State} {i : Instr} (hrunning : s.halt = .running) (hnext : s.nextInstr = some i) :
    ∃ u, step s = exec i u ∧ SameButPcs s u ∧ u.currentPc = s.pc ∧ u.pc = s.nextPc ∧ u.nextPc = s.nextPc + 4 := by
  obtain ⟨w, u, hfetch, hdecode⟩ := fetch_of_nextInstr hnext
  exact ⟨advance u, step_instr hrunning hfetch hdecode, advance_of_fetch_word hfetch⟩

/-- Settles O23: the `add` is executed with the slot's address in `current_pc` and the target of the `jr`, which is not the
address after the slot, in `pc`; so the delay-slot heuristic fires and records the address before the slot. -/
theorem overflowInJrSlotRecordsJump : Obligations.OverflowInJrSlotRecordsJump := by
  unfold Obligations.OverflowInJrSlotRecordsJump
  intro s t rs rd ra rb hrunning hslot hjr htarget hstep hadd hoverflow
  obtain ⟨u, hexec, hu, -, hpc, -⟩ := step_of_nextInstr hrunning hjr
  obtain rfl : u.setNextPc (u.reg rs) = t := Host.Outcome.next.inj (hexec.symm.trans hstep)
  obtain ⟨v, hexec', hv, hcur', hpc', -⟩ :=
    step_of_nextInstr (s := u.setNextPc (u.reg rs)) (hu.halt.trans hrunning) hadd
  have htrap : exec (.add rd ra rb) v = .next (raiseExc .ov v) :=
    congrArg Host.Outcome.next (addTrapping_of_sumOverflows rd v (by rwa [hv.regs, hv.regs]))
  refine ⟨_, hexec'.trans htrap, ?epc, raiseExc_cause .ov v, fun q => (raiseExc_reg .ov v q).trans (hv.regs q), rfl,
    ?pc⟩
  case epc =>
    have hcur : v.currentPc = s.pc + 4 := by rw [hcur', setNextPc_pc, hpc, hslot]
    have hnot : v.pc ≠ v.currentPc + 4 := by
      rw [hpc', setNextPc_nextPc, hu.regs, hcur, BitVec.add_assoc]
      exact htarget
    rw [raiseExc_epc, savedPc, if_pos hnot, hcur, BitVec.add_sub_cancel]
  case pc =>
    rw [raiseExc_pc, handlerAddress, State.sr, hv.cp0]
    rfl

/-! ## A second reset (D25) -/

/-- Settles O2: the asserted reset writes register 0, which reads 0 whatever its slot holds, and word 12 of the bank. -/
theorem secondResetKeepsTheRest : Obligations.SecondResetKeepsTheRest := by
  unfold Obligations.SecondResetKeepsTheRest
  refine ⟨rfl, fun s => ⟨rfl, fun q => ?regs, ⟨rfl, rfl⟩, rfl, fun k hk => ?cp0, sameMemory_assertReset s, rfl⟩⟩
  case regs =>
    by_cases hq : q = 0
    · rw [hq, reg_zero, reg_zero]
    · have hslot : (0 : Nat) ≠ q.val := fun h => hq (Fin.ext h.symm)
      rw [reg_of_ne_zero _ hq, reg_of_ne_zero _ hq]
      simp [hslot]
  case cp0 => exact (cp0Word_setCp0Word s srIndex k resetSr).trans (if_neg hk)

end Sys2Proof.Machine
end
